-- ==== Sys2Proof/Word.lean ====
section
/-! DEFINITION. The two word types of the machine and the index types of its fixed-size files (spec/00_scope.md R5). -/

namespace Sys2Proof

/-- 8 bits: a register V0..VF, a timer, a byte of memory (R5). -/
abbrev Byte := BitVec 8

/-- 16 bits: an opcode, I, PC, a return address (R5, R46). -/
abbrev Word := BitVec 16

/-- The index of a general register V0..VF: a 4-bit opcode field, so never out of range (R10, R102). -/
abbrev Reg := Fin 16

/-- A logical key 0x0..0xF (R5, R22). -/
abbrev Key := Fin 16

/-- A column of the display, 0..63, left to right (R23). -/
abbrev Col := Fin 64

/-- A row of the display, 0..31, top to bottom (R23). -/
abbrev Row := Fin 32

/-- The flag register: VF is V[15] (R11). -/
def vf : Reg := 15

end Sys2Proof
end

