-- ==== Sys2Proof/Config.lean ====
section
/-! DEFINITION. What a particular machine fixes, as parameters: STACK_DEPTH (R6), KEY_TABLE (R7) and FONT (R40), held as
plain data in State, so that a claim about every state holds for every choice of them; and the one free value, the random
byte of a Step whose host supplies none (R8). The values this hardware takes stand in Machine/Params.lean. -/

namespace Sys2Proof.Config

/-- The host key identifiers a schedule of `step` is written in (R7): a character, as in the default convention, or any
other identifier, by a number. DESIGN CHOICE, notes/assumptions/6.md: the spec leaves the type open. The lookup and the
transactions are polymorphic in it, and every host of every type has its behaviour in this one (Machine/Keypad.lean's
`keyName`). -/
inductive HostKey where
  | char (c : Char)
  | other (n : Nat)
  deriving DecidableEq, Repr

/-- FONT, but for glyph 0, which R40 fixes: glyphs 1 to F, each of five rows, top row first, each row the pixel columns in
bits 7..4 of its byte, whose bits 3..0 are zero (R40). -/
abbrev Font := Vector (Vector (BitVec 4) 5) 15

/-- The parameters of the machine (R6, R7, R40). No action changes them (notes/assumptions/5.md). -/
structure Params where
  /-- STACK_DEPTH, the capacity of the call stack (R6). -/
  stackDepth : Nat
  /-- KEY_TABLE: the host key identifier mapped to logical key k, for each k (R7). -/
  keyTable   : Vector HostKey 16
  /-- FONT: glyphs 1 to F (R40; notes/assumptions/4.md). -/
  font       : Font
  deriving DecidableEq, Repr

/-- The random byte of the n-th Step that carries none of its own: a FREE VALUE (R8, R87: no law constrains it), so it
has no body. See notes/assumptions/1.md. -/
opaque freeRnd : Nat → Byte

end Sys2Proof.Config
end

