-- ==== Sys2Proof/Machine/Memory.lean ====
section
/-! DEFINITION. The byte store (spec/20_memory.md): the font, what an unlisted address reads as, and reading and writing
the canonical list, all for every choice of FONT. -/

namespace Sys2Proof.Machine

/-- MEM_SIZE (R5): the addresses are 0x000..0xFFF. -/
def memSize : Nat := 4096

/-- PROG_BASE (R5): where Load puts a program, and the PC it sets. -/
def progBase : Nat := 0x200

/-- Glyph 0 (R40), the source's own: F0 90 90 90 F0. -/
def glyph0 : Vector (BitVec 4) 5 := #v[0xF, 0x9, 0x9, 0x9, 0xF]

/-- Glyphs 1 to F of the table R40 adopts: the default of FONT (notes/assumptions/4.md). -/
def standardFont : Config.Font :=
  #v[#v[0x2, 0x6, 0x2, 0x2, 0x7],
    #v[0xF, 0x1, 0xF, 0x8, 0xF],
    #v[0xF, 0x1, 0xF, 0x1, 0xF],
    #v[0x9, 0x9, 0xF, 0x1, 0x1],
    #v[0xF, 0x8, 0xF, 0x1, 0xF],
    #v[0xF, 0x8, 0xF, 0x9, 0xF],
    #v[0xF, 0x1, 0x2, 0x4, 0x4],
    #v[0xF, 0x9, 0xF, 0x9, 0xF],
    #v[0xF, 0x9, 0xF, 0x1, 0xF],
    #v[0xF, 0x9, 0xF, 0x9, 0x9],
    #v[0xE, 0x9, 0xE, 0x9, 0xE],
    #v[0xF, 0x8, 0x8, 0x8, 0xF],
    #v[0xE, 0x9, 0x9, 0x9, 0xE],
    #v[0xF, 0x8, 0xF, 0x8, 0xF],
    #v[0xF, 0x8, 0xF, 0x8, 0x8]]

/-- The byte of a glyph row: its pixel columns in bits 7..4, zeros in bits 3..0 (R40). -/
def rowByte (row : BitVec 4) : Byte := row ++ 0#4

/-- The 80 bytes of FONT (R40): glyph d occupies 5d..5d+4. -/
def fontBytes (font : Config.Font) : List Byte :=
  (glyph0.toList ++ font.toList.flatMap (·.toList)).map rowByte

/-- What an unlisted address reads as: its content after reset, the font at 0x000..0x04F and zero above (R29, R39). -/
def resetByte (font : Config.Font) (a : Nat) : Byte := (fontBytes font).getD a 0

/-- mem[a], with no bounds check. -/
def Memory.read (font : Config.Font) (a : Nat) : List Host.Cell → Byte
  | [] => resetByte font a
  | (k, c) :: rest => if a = k then c else Memory.read font a rest

/-- mem[a] <- b, keeping the canonical form: addresses strictly rising, and no entry that says what an unlisted address
reads as anyway. -/
def Memory.write (font : Config.Font) (a : Nat) (b : Byte) : List Host.Cell → List Host.Cell
  | [] => if b = resetByte font a then [] else [(a, b)]
  | (k, c) :: rest =>
    if a < k then
      if b = resetByte font a then (k, c) :: rest else (a, b) :: (k, c) :: rest
    else if a = k then
      if b = resetByte font a then rest else (a, b) :: rest
    else (k, c) :: Memory.write font a b rest

/-- mem[a + j] <- bytes[j], in rising order. -/
def Memory.writeAll (font : Config.Font) (a : Nat) : List Byte → List Host.Cell → List Host.Cell
  | [], m => m
  | b :: bs, m => Memory.writeAll font (a + 1) bs (Memory.write font a b m)

/-- The canonical form: addresses inside the store and strictly rising, no entry equal to its reset byte. -/
abbrev Memory.wf (font : Config.Font) (m : List Host.Cell) : Prop :=
  m.Pairwise (fun p q => p.1 < q.1) ∧ ∀ p ∈ m, p.1 < memSize ∧ p.2 ≠ resetByte font p.1

end Sys2Proof.Machine
end

