-- ==== Sys2Proof/Machine/Keypad.lean ====
section
/-! DEFINITION. The key map (R121), for every type of host keys and every table, and the default table (R7). -/

namespace Sys2Proof.Machine

/-- Map(table, h) (R121): the first entry that is h, by linear lookup from index 0; none if there is none. -/
def mapKey {κ : Type} [DecidableEq κ] (table : Vector κ 16) (h : κ) : Option Key :=
  (List.finRange 16).find? fun k => decide (table[k] = h)

/-- The identifier of HostKey that stands for h, a host key of any type, beside a table of that type: it is told apart
from the others as far as the table tells h apart (R121), which is as far as the machine can. -/
def keyName {κ : Type} [DecidableEq κ] (table : Vector κ 16) (h : κ) : Config.HostKey :=
  match mapKey table h with
  | some k => .other k.val
  | none => .other 16

/-- The default KEY_TABLE (R7): the character of hex digit k, in lower case. -/
def defaultKeyTable : Vector Config.HostKey 16 :=
  #v[.char '0', .char '1', .char '2', .char '3', .char '4', .char '5', .char '6', .char '7',
    .char '8', .char '9', .char 'a', .char 'b', .char 'c', .char 'd', .char 'e', .char 'f']

end Sys2Proof.Machine
end

