-- ==== Sys2Proof/Machine/Params.lean ====
section
/-! DEFINITION. The parameters of this hardware. -/

namespace Sys2Proof.Machine

/-- The parameters of this hardware: STACK_DEPTH = 16 (R6), the default key table (R7) and the default font (R40). -/
def standardParams : Config.Params := ⟨16, defaultKeyTable, standardFont⟩

end Sys2Proof.Machine
end

