-- ==== Sys2Proof/Machine/State.lean ====
section
/-! DEFINITION. The machine's whole state as plain data (spec/10_state.md), the kinds of fault and report (R102), the
host's transactions (R114), and the state after power-on (R29, R127). -/

namespace Sys2Proof.Machine

/-- A fault raised inside a step, with the information its record holds (R102, R25). A step TAKES the fault it raises:
run becomes Faulted and the step answers a NEXT state (R104), so no meaning and no step answers `Outcome.fault`; the
operations of Machine/Ops.lean raise these and Machine/Ops.lean's `takeFault` takes them. Safe: nothing ends here. -/
inductive Fault where
  /-- An access address above 0xFFF: raised by a fetch, Dxyn, Fx33, Fx55 and Fx65 (R31). Safe: taken as the spec says. -/
  | memoryOutOfBounds (addr : Nat)
  /-- 2nnn with SP = STACK_DEPTH (R19). Safe: taken as the spec says. -/
  | stackOverflow
  /-- 00EE with SP = 0 (R20). Safe: taken as the spec says. -/
  | stackUnderflow
  /-- Ex9E and ExA1 with V[x] above 0x0F (R90). Safe: taken as the spec says. -/
  | invalidRegisterOrKeyIndex (value : Nat)
  deriving DecidableEq, Repr

/-- Why the model gives an instruction no meaning. No instruction of this model is refused. -/
inductive Refusal where
  /-- Raised by exec's arm of an instruction that has no meaning yet; no arm raises it. Safe: the model stops. -/
  | notModelled (mnemonic : String)
  deriving DecidableEq, Repr

/-- The error kinds of R102 and R103. -/
inductive ErrorKind where
  | memoryOutOfBounds
  | stackOverflow
  | stackUnderflow
  | invalidRegisterOrKeyIndex
  | unmappedOpcode
  | loadTooLarge
  deriving DecidableEq, Repr

/-- FaultRecord (R25). Its kind, code and info are read off `fault` (Machine/Ops.lean); `opcode` is none for a fetch
fault; `addr` is PC at the fault, the faulting opcode's address. -/
structure FaultRecord where
  fault  : Fault
  opcode : Option Word
  addr   : Word
  deriving DecidableEq, Repr

/-- An entry of the report log (R26): the UnmappedOpcode warning of R105, or a fault with its record. -/
inductive Report where
  | warning (opcode : Word) (addr : Word)
  | fault (record : FaultRecord)
  deriving DecidableEq, Repr

/-- The run state (R24). -/
inductive RunState where
  /-- The core takes steps. -/
  | running
  /-- Fx0A for register x is suspended. -/
  | waitingKey (x : Reg)
  /-- A fault stopped the core. -/
  | faulted (record : FaultRecord)
  deriving DecidableEq, Repr

/-- A state component the host's Read names (R114, R116). -/
inductive Component where
  | mem (addr : Fin 4096)
  | v (r : Reg)
  | i
  | pc
  | sp
  | stack (entry : Nat)
  | dt
  | st
  | key (k : Key)
  | pixel (px : Col) (py : Row)
  | run
  | log
  deriving DecidableEq, Repr

/-- The host's transactions and the Step it issues (R114), for host keys of type κ (R7). -/
inductive Transaction (κ : Type) where
  /-- One instruction cycle, carrying the random byte (R52). -/
  | step (rnd : Byte)
  | tick
  | setDown (k : Nat)
  | setUp (k : Nat)
  | keyInput (h : κ)
  | skip
  | load (bytes : List Byte)
  | reset
  | read (c : Component)
  deriving DecidableEq, Repr

/-- A transaction of the schedule State holds. -/
abbrev HostTransaction := Transaction Config.HostKey

/-- disp[px][py] (R23): column first, true means lit. -/
abbrev Display := Vector (Vector Bool 32) 64

/-- The state of the core (spec/10_state.md), the report log (R26), the parameters (R6, R7, R40), and the model's own three
fields, which let one deterministic step show every order of the host's actions and every random byte
(notes/assumptions/1.md, 2.md). -/
structure State where
  /-- The 4096-byte store, in canonical form (Machine/Memory.lean); an unlisted address reads as its reset byte
  (R30, R40). -/
  mem   : List Host.Cell
  /-- V0..VF (R10). -/
  v     : Vector Byte 16
  /-- The index register I (R13). -/
  i     : Word
  /-- The program counter (R14). -/
  pc    : Word
  /-- The number of call-stack entries in use, 0 ≤ SP ≤ STACK_DEPTH (R18). -/
  sp    : Nat
  /-- The call stack's own storage, STACK_DEPTH entries (R17). -/
  stack : List Word
  /-- The delay timer (R21). -/
  dt    : Byte
  /-- The sound timer (R21). -/
  st    : Byte
  /-- The key flags, true means down (R22). -/
  keys  : Vector Bool 16
  /-- The display buffer (R23). -/
  disp  : Display
  /-- The run state (R24). -/
  run   : RunState
  /-- The report log, oldest first (R26). -/
  log   : List Report
  /-- The machine's parameters, which no action changes (R6, R7, R40; notes/assumptions/5.md, 6.md, 4.md). -/
  params : Config.Params
  /-- MODEL'S OWN: the transactions the host will issue, oldest first; when it is empty the host issues Steps. -/
  inputs : List HostTransaction
  /-- MODEL'S OWN: the input `rnd` of the Step under way (R52, R8). -/
  rnd   : Byte
  /-- MODEL'S OWN: how many Steps have drawn their byte from Config.freeRnd. -/
  draws : Nat
  deriving DecidableEq, Repr

/-- The state after power-on of a machine with parameters p (R29, R127): every component zero or false, memory at its
reset contents (nothing listed: p's font and zeros), run = Running, the report log empty. The model's own fields start
empty and zero (DESIGN CHOICE, notes/assumptions/3.md). -/
def State.resetWith (p : Config.Params) : State where
  mem := []
  v := Vector.replicate 16 0
  i := 0
  pc := 0
  sp := 0
  stack := List.replicate p.stackDepth 0
  dt := 0
  st := 0
  keys := Vector.replicate 16 false
  disp := Vector.replicate 64 (Vector.replicate 32 false)
  run := .running
  log := []
  params := p
  inputs := []
  rnd := 0
  draws := 0

/-- The state after power-on of this hardware, whose STACK_DEPTH is 16 and whose key table and font are the default
ones (R29, R127, R6, R7, R40). -/
def State.reset : State := State.resetWith standardParams

end Sys2Proof.Machine
end

