-- ==== Sys2Proof/Machine/Operands.lean ====
section
/-! DEFINITION. The operand forms: general registers, immediates, key indices, effective addresses, and the updates of
one component of the state. Every read and write of a register goes through here. -/

namespace Sys2Proof.Machine

/-- The read V[x] (R10). No register is hardwired. -/
def State.getV (s : State) (x : Reg) : Byte := s.v[x]

/-- V[x] <- b (R10). -/
def State.setV (s : State) (x : Reg) (b : Byte) : State := { s with v := s.v.set x b }

/-- V[0] <- bytes[0], ..., for as many registers as there are bytes; the others keep their values (R101). -/
def State.setVs (s : State) (bytes : List Byte) : State :=
  { s with v := Vector.ofFn fun r : Reg => bytes.getD r.val s.v[r] }

/-- The values of V[0], ..., V[x], in rising order (R100). -/
def State.getVs (s : State) (x : Reg) : List Byte := (s.v.toList).take (x.val + 1)

/-- I <- w (R13). -/
def State.setI (s : State) (w : Word) : State := { s with i := w }

/-- PC <- w (R14). -/
def State.setPc (s : State) (w : Word) : State := { s with pc := w }

/-- DT <- b (R21). -/
def State.setDt (s : State) (b : Byte) : State := { s with dt := b }

/-- ST <- b (R21). -/
def State.setSt (s : State) (b : Byte) : State := { s with st := b }

/-- The run state becomes r (R24). -/
def State.setRun (s : State) (r : RunState) : State := { s with run := r }

/-- mem <- m (R30). -/
def State.setMem (s : State) (m : List Host.Cell) : State := { s with mem := m }

/-- mem[base + j] <- bytes[j], in rising order, with no bounds check (R33). -/
def State.store (s : State) (base : Nat) (bytes : List Byte) : State :=
  s.setMem (Memory.writeAll s.params.font base bytes s.mem)

/-- disp <- d (R23). -/
def State.setDisp (s : State) (d : Display) : State := { s with disp := d }

/-- keys[k] <- down (R22). -/
def State.setKey (s : State) (k : Key) (down : Bool) : State := { s with keys := s.keys.set k down }

/-- One entry is appended to the report log (R26). -/
def State.report (s : State) (r : Report) : State := { s with log := s.log ++ [r] }

/-- stack[j], for an entry j of the call stack (R17). -/
def State.stackAt (s : State) (j : Nat) : Word := s.stack.getD j 0

/-- zext_16(nnn) (R48). -/
def zextNNN (nnn : BitVec 12) : Word := nnn.setWidth 16

/-- zext_16(v) for a byte v. -/
def zextByte (b : Byte) : Word := b.setWidth 16

/-- The effective address I + j, an unbounded natural number (R34). -/
def State.effAddr (s : State) (j : Nat) : Nat := s.i.toNat + j

/-- The byte at an address, with no bounds check: what MemRead returns where it does not fault (R32). -/
def State.byteAt (s : State) (a : Nat) : Byte := Memory.read s.params.font a s.mem

/-- The logical key V[x] names, or the fault of R90. -/
def keyOperand (s : State) (x : Reg) : Except Fault Key :=
  if h : (s.getV x).toNat < 16 then .ok ⟨(s.getV x).toNat, h⟩
  else .error (.invalidRegisterOrKeyIndex (s.getV x).toNat)

/-- disp[px][py] (R23). -/
def Display.pixel (d : Display) (px : Col) (py : Row) : Bool := d[px][py]

/-- disp[px][py] <- lit (R23). -/
def Display.setPixel (d : Display) (px : Col) (py : Row) (lit : Bool) : Display := d.set px (d[px].set py lit)

/-- The display with every pixel clear: the display buffer's clear() (R61). -/
def Display.clear : Display := Vector.replicate 64 (Vector.replicate 32 false)

end Sys2Proof.Machine
end

