-- ==== Sys2Proof/Machine/Flags.lean ====
section
/-! DEFINITION. The flags, all of them in VF (R11, R85): the carry, the no-borrow flag, the bits shifted out and the
collision flag, and the order in which a flagged instruction writes its result and its flag (R74). -/

namespace Sys2Proof.Machine

/-- A flag is stored as 1 or 0 (R74, R89). -/
def flagByte (c : Bool) : Byte := if c then 1 else 0

/-- The carry of a + b: 1 iff the unbounded sum exceeds 255 (R80). -/
def carry (a b : Byte) : Bool := 255 < a.toNat + b.toNat

/-- No borrow in a - b: the unsigned comparison a ≥ b (R73, R81). -/
def noBorrow (a b : Byte) : Bool := b.toNat ≤ a.toNat

/-- The bit a right shift by one shifts out, a[0] (R82). -/
def shiftedOutRight (a : Byte) : Bool := a.getLsbD 0

/-- The bit a left shift by one shifts out, a[7] (R84). -/
def shiftedOutLeft (a : Byte) : Bool := a.getLsbD 7

/-- VF <- the flag. -/
def State.setFlag (s : State) (c : Bool) : State := s.setV vf (flagByte c)

/-- The two writes of a flagged ALU instruction, in the order of R74: V[x] first, then VF, so that with x = 0xF the
flag holds. -/
def State.setResultAndFlag (s : State) (x : Reg) (result : Byte) (flag : Bool) : State :=
  (s.setV x result).setFlag flag

end Sys2Proof.Machine
end

