-- ==== Sys2Proof/Syntax.lean ====
section
/-! DEFINITION. The instructions: one constructor for each row of spec/opcode_table.json (35 rows, R50), and one more,
`unmapped`, for the words of R57 that lie in no row of the table. -/

namespace Sys2Proof

/-- The instruction set (R49-R51). Field names are those of R47: x and y register indices, kk a byte immediate, nnn a
12-bit address immediate, n a row count. -/
inductive Instr where
  /-- 00E0, CLS (R61). -/
  | cls
  /-- 00EE, RET (R62). -/
  | ret
  /-- 0nnn, every word of the 0 family but 00E0 and 00EE: UNMAPPED (R57). -/
  | sys (nnn : BitVec 12)
  /-- 1nnn, JP nnn (R63). -/
  | jp (nnn : BitVec 12)
  /-- 2nnn, CALL nnn (R64). -/
  | call (nnn : BitVec 12)
  /-- 3xkk, SE Vx, kk (R67). -/
  | seImm (x : Reg) (kk : Byte)
  /-- 4xkk, SNE Vx, kk (R68). -/
  | sneImm (x : Reg) (kk : Byte)
  /-- 5xy0, SE Vx, Vy (R69). -/
  | seReg (x y : Reg)
  /-- 6xkk, LD Vx, kk (R71). -/
  | ldImm (x : Reg) (kk : Byte)
  /-- 7xkk, ADD Vx, kk (R72). -/
  | addImm (x : Reg) (kk : Byte)
  /-- 8xy0, LD Vx, Vy (R76). -/
  | ldReg (x y : Reg)
  /-- 8xy1, OR Vx, Vy (R77). -/
  | orReg (x y : Reg)
  /-- 8xy2, AND Vx, Vy (R78). -/
  | andReg (x y : Reg)
  /-- 8xy3, XOR Vx, Vy (R79). -/
  | xorReg (x y : Reg)
  /-- 8xy4, ADD Vx, Vy (R80). -/
  | addReg (x y : Reg)
  /-- 8xy5, SUB Vx, Vy (R81). -/
  | sub (x y : Reg)
  /-- 8xy6, SHR Vx; y is decoded and ignored (R82). -/
  | shr (x y : Reg)
  /-- 8xy7, SUBN Vx, Vy (R83). -/
  | subn (x y : Reg)
  /-- 8xyE, SHL Vx; y is decoded and ignored (R84). -/
  | shl (x y : Reg)
  /-- 9xy0, SNE Vx, Vy (R70). -/
  | sneReg (x y : Reg)
  /-- Annn, LD I, nnn (R86). -/
  | ldI (nnn : BitVec 12)
  /-- Bnnn, JP V0, nnn (R65). -/
  | jpV0 (nnn : BitVec 12)
  /-- Cxkk, RND Vx, kk (R87). -/
  | rnd (x : Reg) (kk : Byte)
  /-- Dxyn, DRW Vx, Vy, n (R89). -/
  | drw (x y : Reg) (n : Fin 16)
  /-- Ex9E, SKP Vx (R91). -/
  | skp (x : Reg)
  /-- ExA1, SKNP Vx (R92). -/
  | sknp (x : Reg)
  /-- Fx07, LD Vx, DT (R93). -/
  | ldVxDt (x : Reg)
  /-- Fx0A, LD Vx, K (R96). -/
  | ldVxK (x : Reg)
  /-- Fx15, LD DT, Vx (R94). -/
  | ldDtVx (x : Reg)
  /-- Fx18, LD ST, Vx (R95). -/
  | ldStVx (x : Reg)
  /-- Fx1E, ADD I, Vx (R97). -/
  | addIVx (x : Reg)
  /-- Fx29, LD F, Vx (R98). -/
  | ldFVx (x : Reg)
  /-- Fx33, LD B, Vx (R99). -/
  | ldBVx (x : Reg)
  /-- Fx55, LD [I], Vx (R100). -/
  | ldMemVx (x : Reg)
  /-- Fx65, LD Vx, [I] (R101). -/
  | ldVxMem (x : Reg)
  /-- UNMAPPED(w) for the words outside the 0 family: 5xyN and 9xyN with N ≠ 0, 8xyN with N in {8..D, F}, and the
  E and F sub-opcodes of no row (R57). -/
  | unmapped (w : Word)
  deriving DecidableEq, Repr

end Sys2Proof
end

