-- ==== Sys2Proof/Decode.lean ====
section
/-! DEFINITION. The decoder of spec/30_encoding.md (R46-R51), total on 16-bit words and on byte lists, and after it the
encoder, written from the formats of R49. -/

namespace Sys2Proof

/-! The fields every opcode has (R47). -/

/-- op = w[15:12], the top nibble. -/
def fieldOp (w : Word) : Fin 16 := (w.extractLsb' 12 4).toFin

/-- x = w[11:8]. -/
def fieldX (w : Word) : Reg := (w.extractLsb' 8 4).toFin

/-- y = w[7:4]. -/
def fieldY (w : Word) : Reg := (w.extractLsb' 4 4).toFin

/-- n = w[3:0]. -/
def fieldN (w : Word) : Fin 16 := (w.extractLsb' 0 4).toFin

/-- kk = w[7:0]. -/
def fieldKK (w : Word) : Byte := w.extractLsb' 0 8

/-- nnn = w[11:0]. -/
def fieldNNN (w : Word) : BitVec 12 := w.extractLsb' 0 12

/-- The 0 family: two mapped words, and UNMAPPED for every other (R51, R57). -/
def decodeScreen (w : Word) : Instr :=
  if w = 0x00E0 then .cls
  else if w = 0x00EE then .ret
  else .sys (fieldNNN w)

/-- The 8 family, by n (R51). -/
def decodeAlu (w : Word) : Instr :=
  let x := fieldX w
  let y := fieldY w
  match (fieldN w).val with
  | 0x0 => .ldReg x y
  | 0x1 => .orReg x y
  | 0x2 => .andReg x y
  | 0x3 => .xorReg x y
  | 0x4 => .addReg x y
  | 0x5 => .sub x y
  | 0x6 => .shr x y
  | 0x7 => .subn x y
  | 0xE => .shl x y
  | _ => .unmapped w

/-- The E family, by kk (R51). -/
def decodeKey (w : Word) : Instr :=
  match (fieldKK w).toNat with
  | 0x9E => .skp (fieldX w)
  | 0xA1 => .sknp (fieldX w)
  | _ => .unmapped w

/-- The F family, by kk (R51). -/
def decodeExtended (w : Word) : Instr :=
  let x := fieldX w
  match (fieldKK w).toNat with
  | 0x07 => .ldVxDt x
  | 0x0A => .ldVxK x
  | 0x15 => .ldDtVx x
  | 0x18 => .ldStVx x
  | 0x1E => .addIVx x
  | 0x29 => .ldFVx x
  | 0x33 => .ldBVx x
  | 0x55 => .ldMemVx x
  | 0x65 => .ldVxMem x
  | _ => .unmapped w

/-- decode(w), by top nibble (R51): total, and strict in every sub-opcode. The last arm is reached by no 4-bit value. -/
def decodeWord (w : Word) : Instr :=
  match (fieldOp w).val with
  | 0x0 => decodeScreen w
  | 0x1 => .jp (fieldNNN w)
  | 0x2 => .call (fieldNNN w)
  | 0x3 => .seImm (fieldX w) (fieldKK w)
  | 0x4 => .sneImm (fieldX w) (fieldKK w)
  | 0x5 => if fieldN w = 0 then .seReg (fieldX w) (fieldY w) else .unmapped w
  | 0x6 => .ldImm (fieldX w) (fieldKK w)
  | 0x7 => .addImm (fieldX w) (fieldKK w)
  | 0x8 => decodeAlu w
  | 0x9 => if fieldN w = 0 then .sneReg (fieldX w) (fieldY w) else .unmapped w
  | 0xA => .ldI (fieldNNN w)
  | 0xB => .jpV0 (fieldNNN w)
  | 0xC => .rnd (fieldX w) (fieldKK w)
  | 0xD => .drw (fieldX w) (fieldY w) (fieldN w)
  | 0xE => decodeKey w
  | 0xF => decodeExtended w
  | _ => .unmapped w

/-- Why a byte list holds no instruction. -/
inductive DecodeRejection where
  /-- Fewer than the two bytes of an opcode (R46). -/
  | truncated
  deriving DecidableEq, Repr

/-- Opcodes are big-endian: the byte at the lower address is the high byte (R35). -/
def opcodeOfBytes (hi lo : Byte) : Word := hi ++ lo

/-- The decoder on bytes in memory order: it consumes exactly two and gives the rest back (R46, R35). -/
def decodeBytes : List Byte → Except DecodeRejection (Instr × List Byte)
  | hi :: lo :: rest => .ok (decodeWord (opcodeOfBytes hi lo), rest)
  | _ => .error .truncated

/-- The two bytes of an opcode in memory order (R35). -/
def bytesOfOpcode (w : Word) : List Byte := [w.extractLsb' 8 8, w.extractLsb' 0 8]

/-- The word of an opcode-table row, its bits above nbits zero. -/
def tableWord (nbits w : Nat) : Word := BitVec.ofNat 16 (w % 2 ^ nbits)

/-- What the decoder reads from an instruction whose bits are w, numbered as spec/opcode_table.json numbers them. -/
def decodeTableWord (nbits w : Nat) : Option Instr :=
  match decodeBytes (bytesOfOpcode (tableWord nbits w)) with
  | .ok (i, _) => some i
  | .error _ => none

/-! The encoder: the formats of R49, most significant field first. -/

/-- A 4-bit field. -/
def nibble (x : Fin 16) : BitVec 4 := BitVec.ofFin x

/-- Format A: `oooo nnnn nnnn nnnn`. -/
def formatA (op : BitVec 4) (nnn : BitVec 12) : Word := op ++ nnn

/-- Format XK: `oooo xxxx kkkk kkkk`. Format XS has the same shape, with a fixed sub-opcode in place of kk. -/
def formatXK (op : BitVec 4) (x : Reg) (kk : Byte) : Word := op ++ nibble x ++ kk

/-- Formats XY and XYN: `oooo xxxx yyyy ssss`. -/
def formatXY (op : BitVec 4) (x y : Reg) (s : BitVec 4) : Word := op ++ nibble x ++ nibble y ++ s

/-- The word of an instruction (R49, R50). -/
def encode : Instr → Word
  | .cls => 0x00E0
  | .ret => 0x00EE
  | .sys nnn => formatA 0x0 nnn
  | .jp nnn => formatA 0x1 nnn
  | .call nnn => formatA 0x2 nnn
  | .seImm x kk => formatXK 0x3 x kk
  | .sneImm x kk => formatXK 0x4 x kk
  | .seReg x y => formatXY 0x5 x y 0x0
  | .ldImm x kk => formatXK 0x6 x kk
  | .addImm x kk => formatXK 0x7 x kk
  | .ldReg x y => formatXY 0x8 x y 0x0
  | .orReg x y => formatXY 0x8 x y 0x1
  | .andReg x y => formatXY 0x8 x y 0x2
  | .xorReg x y => formatXY 0x8 x y 0x3
  | .addReg x y => formatXY 0x8 x y 0x4
  | .sub x y => formatXY 0x8 x y 0x5
  | .shr x y => formatXY 0x8 x y 0x6
  | .subn x y => formatXY 0x8 x y 0x7
  | .shl x y => formatXY 0x8 x y 0xE
  | .sneReg x y => formatXY 0x9 x y 0x0
  | .ldI nnn => formatA 0xA nnn
  | .jpV0 nnn => formatA 0xB nnn
  | .rnd x kk => formatXK 0xC x kk
  | .drw x y n => formatXY 0xD x y (nibble n)
  | .skp x => formatXK 0xE x 0x9E
  | .sknp x => formatXK 0xE x 0xA1
  | .ldVxDt x => formatXK 0xF x 0x07
  | .ldVxK x => formatXK 0xF x 0x0A
  | .ldDtVx x => formatXK 0xF x 0x15
  | .ldStVx x => formatXK 0xF x 0x18
  | .addIVx x => formatXK 0xF x 0x1E
  | .ldFVx x => formatXK 0xF x 0x29
  | .ldBVx x => formatXK 0xF x 0x33
  | .ldMemVx x => formatXK 0xF x 0x55
  | .ldVxMem x => formatXK 0xF x 0x65
  | .unmapped w => w

/-- The bytes of an instruction in memory order (R35). -/
def encodeBytes (i : Instr) : List Byte := bytesOfOpcode (encode i)

end Sys2Proof
end

