-- ==== Sys2Proof/Machine/Ops.lean ====
section
/-! DEFINITION. The operations instructions share: bounds-checked memory accesses (R31-R38), the call stack (R19, R20),
fetch (R53), the post-fetch advance (R54), skips (R66), and taking a fault, reporting a warning and the return from a
fault (R104, R105, R107). -/

namespace Sys2Proof.Machine

/-! ### Memory -/

/-- MemRead(a, 1) (R32). -/
def memRead (s : State) (a : Nat) : Except Fault Byte :=
  if memSize ≤ a then .error (.memoryOutOfBounds a) else .ok (s.byteAt a)

/-- MemWrite(a, 1, b) (R33): every address below MEM_SIZE is writable. -/
def memWrite (s : State) (a : Nat) (b : Byte) : Except Fault State :=
  if memSize ≤ a then .error (.memoryOutOfBounds a) else .ok (s.store a [b])

/-- The lowest address of base, ..., base + count - 1 that is out of bounds, if there is one (R38). -/
def lowestOutOfBounds (base count : Nat) : Option Nat :=
  ((List.range count).map (base + ·)).find? (memSize ≤ ·)

/-- The check an instruction makes before its accesses: all of them in bounds, or the fault at the lowest that is not
(R38). No access, no fault. -/
def checkBlock (base count : Nat) : Except Fault Unit :=
  match lowestOutOfBounds base count with
  | some a => .error (.memoryOutOfBounds a)
  | none => .ok ()

/-- MemRead of base, ..., base + count - 1, all or nothing (R38). -/
def readBlock (s : State) (base count : Nat) : Except Fault (List Byte) :=
  match checkBlock base count with
  | .error f => .error f
  | .ok () => .ok ((List.range count).map fun j => s.byteAt (base + j))

/-- MemWrite of the bytes to base, base + 1, ..., all or nothing (R38). -/
def writeBlock (s : State) (base : Nat) (bytes : List Byte) : Except Fault State :=
  match checkBlock base bytes.length with
  | .error f => .error f
  | .ok () => .ok (s.store base bytes)

/-! ### The call stack -/

/-- Push(w) (R19). -/
def push (s : State) (w : Word) : Except Fault State :=
  if s.params.stackDepth ≤ s.sp then .error .stackOverflow
  else .ok { s with stack := s.stack.set s.sp w, sp := s.sp + 1 }

/-- Pop() (R20): the old top, and the state with SP decremented; the popped entry keeps its value. -/
def pop (s : State) : Except Fault (Word × State) :=
  if s.sp = 0 then .error .stackUnderflow
  else .ok (s.stackAt (s.sp - 1), { s with sp := s.sp - 1 })

/-! ### Fetch, advance, skip -/

/-- Fetch(PC) (R53): the high byte at PC, the low byte at PC + 1, an unbounded sum. -/
def fetch (s : State) : Except Fault Word :=
  match memRead s s.pc.toNat with
  | .error f => .error f
  | .ok hi =>
    match memRead s (s.pc.toNat + 1) with
    | .error f => .error f
    | .ok lo => .ok (opcodeOfBytes hi lo)

/-- PC <- (PC + 2) mod 2^16: the post-fetch advance (R54), a taken skip (R66) and the host's skip (R107). -/
def State.advance (s : State) : State := s.setPc (s.pc + 2)

/-- PC as it was before the post-fetch advance: what a fault restores (R104). -/
def State.undoAdvance (s : State) : State := s.setPc (s.pc - 2)

/-- A skip whose condition holds adds 2 to the advanced PC (R66). -/
def State.skipIf (s : State) (c : Bool) : State := if c then s.advance else s

/-! ### Faults and warnings -/

/-- The kind of a fault (R102). -/
def Fault.kind : Fault → ErrorKind
  | .memoryOutOfBounds _ => .memoryOutOfBounds
  | .stackOverflow => .stackOverflow
  | .stackUnderflow => .stackUnderflow
  | .invalidRegisterOrKeyIndex _ => .invalidRegisterOrKeyIndex

/-- The info a fault records (R25, R102). -/
def Fault.info : Fault → Option Nat
  | .memoryOutOfBounds a => some a
  | .stackOverflow => none
  | .stackUnderflow => none
  | .invalidRegisterOrKeyIndex k => some k

/-- The number of a kind (R103). -/
def ErrorKind.code : ErrorKind → Nat
  | .memoryOutOfBounds => 1
  | .stackOverflow => 2
  | .stackUnderflow => 3
  | .invalidRegisterOrKeyIndex => 4
  | .unmappedOpcode => 5
  | .loadTooLarge => 6

/-- The kind of a report's record (R25, R105). -/
def Report.kind : Report → ErrorKind
  | .warning _ _ => .unmappedOpcode
  | .fault record => record.fault.kind

/-- The code of a report's record: its kind's number (R25, R103). -/
def Report.code (r : Report) : Nat := r.kind.code

/-- The opcode of a report's record: none for a fetch fault (R25, R105). -/
def Report.opcode : Report → Option Word
  | .warning w _ => some w
  | .fault record => record.opcode

/-- The addr of a report's record: the opcode's address (R25, R105). -/
def Report.addr : Report → Word
  | .warning _ a => a
  | .fault record => record.addr

/-- The info of a report's record (R25); a warning's info is the opcode (R105). -/
def Report.info : Report → Option Nat
  | .warning w _ => some w.toNat
  | .fault record => record.fault.info

/-- Taking a fault (R104). s is the state before the step, so that PC is the faulting opcode's address: run becomes
Faulted with the record, the record is appended to the log, and nothing else changes. -/
def takeFault (opcode : Option Word) (f : Fault) (s : State) : State :=
  let record : FaultRecord := ⟨f, opcode, s.pc⟩
  (s.setRun (.faulted record)).report (.fault record)

/-- The return from a fault, the host's Skip (R107): PC passes the opcode and the core runs again. -/
def skipFault (s : State) : State := s.advance.setRun .running

/-- Reporting an UNMAPPED word in its execute phase (R57, R105): the warning, and nothing else. -/
def reportUnmapped (w : Word) (s : State) : State := s.report (.warning w (s.pc - 2))

/-- How an execute phase ends (R52, R104). w is the fetched word, s the state after the post-fetch advance, r what the
instruction's pseudocode did from s: its own state, or a fault taken from the state before the step. -/
def conclude (w : Word) (s : State) (r : Except Fault State) : Host.Outcome State Fault Refusal :=
  match r with
  | .ok t => .next t
  | .error f => .next (takeFault (some w) f s.undoAdvance)

end Sys2Proof.Machine
end

