-- ==== Sys2Proof/Machine/Draw.lean ====
section
/-! DEFINITION. The sprite compositor and Dxyn (spec/46_draw.md). -/

namespace Sys2Proof.Machine

/-- The column of sprite bit b: (bx + b) mod 64, wrap-around (R88). -/
def spriteCol (bx b : Nat) : Col := ⟨(bx + b) % 64, Nat.mod_lt _ (by decide)⟩

/-- The row of sprite row r: (by + r) mod 32, wrap-around (R88). -/
def spriteRow (byy r : Nat) : Row := ⟨(byy + r) % 32, Nat.mod_lt _ (by decide)⟩

/-- One sprite bit composited onto a display, with the collision so far (R88): a 1 bit inverts its pixel, and a lit
pixel turned off is a collision; a 0 bit changes nothing. -/
def drawBit (px : Col) (py : Row) (bit : Bool) (acc : Display × Bool) : Display × Bool :=
  if bit then
    (acc.1.setPixel px py (!acc.1.pixel px py), acc.2 || acc.1.pixel px py)
  else acc

/-- One row byte, most significant bit first (R88). -/
def drawRow (bx byy r : Nat) (row : Byte) (acc : Display × Bool) : Display × Bool :=
  (List.range 8).foldl
    (fun acc b => drawBit (spriteCol bx b) (spriteRow byy r) (row.getLsbD (7 - b)) acc) acc

/-- DrawSprite(bx, by, rows) from sprite row r on (R88). -/
def drawRows (bx byy : Nat) : Nat → List Byte → Display × Bool → Display × Bool
  | _, [], acc => acc
  | r, row :: rows, acc => drawRows bx byy (r + 1) rows (drawRow bx byy r row acc)

/-- DrawSprite(bx, by, rows): the new display and the collision (R88). -/
def drawSprite (bx byy : Nat) (rows : List Byte) (d : Display) : Display × Bool :=
  drawRows bx byy 0 rows (d, false)

/-- Dxyn, DRW Vx, Vy, n (R89): the rows are read, all or nothing, the coordinates come from the snapshot, and VF
receives the collision flag last. -/
def execDrw (x y : Reg) (n : Fin 16) (s : State) : Host.Outcome State Fault Refusal :=
  conclude (encode (.drw x y n)) s <|
    match readBlock s (s.effAddr 0) n.val with
    | .error f => .error f
    | .ok rows =>
      let drawn := drawSprite (s.getV x).toNat (s.getV y).toNat rows s.disp
      .ok ((s.setDisp drawn.1).setFlag drawn.2)

end Sys2Proof.Machine
end

