-- ==== Sys2Proof/Machine/ExtendedF.lean ====
section
/-! DEFINITION. The extended F family (spec/48_extended_f.md): timers, the blocking key read, index arithmetic, the
glyph lookup, BCD and block transfer. -/

namespace Sys2Proof.Machine

/-- Fx07, LD Vx, DT (R93). -/
def execLdVxDt (x : Reg) (s : State) : Host.Outcome State Fault Refusal :=
  .next (s.setV x s.dt)

/-- Fx0A, LD Vx, K (R96): the core waits; the host's KeyInput (Machine/Transactions.lean) completes it. -/
def execLdVxK (x : Reg) (s : State) : Host.Outcome State Fault Refusal :=
  .next (s.setRun (.waitingKey x))

/-- Fx15, LD DT, Vx (R94). -/
def execLdDtVx (x : Reg) (s : State) : Host.Outcome State Fault Refusal :=
  .next (s.setDt (s.getV x))

/-- Fx18, LD ST, Vx (R95). -/
def execLdStVx (x : Reg) (s : State) : Host.Outcome State Fault Refusal :=
  .next (s.setSt (s.getV x))

/-- Fx1E, ADD I, Vx (R97): mod 2^16, and no flag. -/
def execAddIVx (x : Reg) (s : State) : Host.Outcome State Fault Refusal :=
  .next (s.setI (s.i + zextByte (s.getV x)))

/-- Fx29, LD F, Vx (R98): V[x] is not masked. -/
def execLdFVx (x : Reg) (s : State) : Host.Outcome State Fault Refusal :=
  .next (s.setI (zextByte (s.getV x) * 5))

/-- The BCD digits of a byte, hundreds first (R99). -/
def bcdDigits (v : Byte) : List Byte :=
  [BitVec.ofNat 8 (v.toNat / 100), BitVec.ofNat 8 (v.toNat / 10 % 10), BitVec.ofNat 8 (v.toNat % 10)]

/-- Fx33, LD B, Vx (R99). -/
def execLdBVx (x : Reg) (s : State) : Host.Outcome State Fault Refusal :=
  conclude (encode (.ldBVx x)) s (writeBlock s (s.effAddr 0) (bcdDigits (s.getV x)))

/-- Fx55, LD [I], Vx (R100): I is unchanged. -/
def execLdMemVx (x : Reg) (s : State) : Host.Outcome State Fault Refusal :=
  conclude (encode (.ldMemVx x)) s (writeBlock s (s.effAddr 0) (s.getVs x))

/-- Fx65, LD Vx, [I] (R101): I is unchanged. -/
def execLdVxMem (x : Reg) (s : State) : Host.Outcome State Fault Refusal :=
  conclude (encode (.ldVxMem x)) s <|
    match readBlock s (s.effAddr 0) (x.val + 1) with
    | .error f => .error f
    | .ok bytes => .ok (s.setVs bytes)

end Sys2Proof.Machine
end

