-- ==== Sys2Proof/Machine/IndexRandom.lean ====
section
/-! DEFINITION. Index and random (spec/45_index_random.md): Annn, Cxkk. -/

namespace Sys2Proof.Machine

/-- Annn, LD I, nnn (R86). -/
def execLdI (nnn : BitVec 12) (s : State) : Host.Outcome State Fault Refusal :=
  .next (s.setI (zextNNN nnn))

/-- Cxkk, RND Vx, kk (R87): the byte the Step carries, masked. -/
def execRnd (x : Reg) (kk : Byte) (s : State) : Host.Outcome State Fault Refusal :=
  .next (s.setV x (s.rnd &&& kk))

end Sys2Proof.Machine
end

