-- ==== Sys2Proof/Machine/JumpCall.lean ====
section
/-! DEFINITION. Jump and call (spec/41_jump_call.md): 1nnn, 2nnn, Bnnn. -/

namespace Sys2Proof.Machine

/-- 1nnn, JP nnn (R63). -/
def execJp (nnn : BitVec 12) (s : State) : Host.Outcome State Fault Refusal :=
  .next (s.setPc (zextNNN nnn))

/-- 2nnn, CALL nnn (R64): the pushed PC is P + 2. -/
def execCall (nnn : BitVec 12) (s : State) : Host.Outcome State Fault Refusal :=
  conclude (encode (.call nnn)) s <|
    match push s s.pc with
    | .error f => .error f
    | .ok t => .ok (t.setPc (zextNNN nnn))

/-- Bnnn, JP V0, nnn (R65): the sum is not truncated to 12 bits, and the register is always V0. -/
def execJpV0 (nnn : BitVec 12) (s : State) : Host.Outcome State Fault Refusal :=
  .next (s.setPc (zextNNN nnn + zextByte (s.getV 0)))

end Sys2Proof.Machine
end

