-- ==== Sys2Proof/Machine/KeySkip.lean ====
section
/-! DEFINITION. Key skips (spec/47_key_skip.md): Ex9E, ExA1. -/

namespace Sys2Proof.Machine

/-- Ex9E, SKP Vx (R91, R90). -/
def execSkp (x : Reg) (s : State) : Host.Outcome State Fault Refusal :=
  conclude (encode (.skp x)) s <|
    match keyOperand s x with
    | .error f => .error f
    | .ok k => .ok (s.skipIf s.keys[k])

/-- ExA1, SKNP Vx (R92, R90). -/
def execSknp (x : Reg) (s : State) : Host.Outcome State Fault Refusal :=
  conclude (encode (.sknp x)) s <|
    match keyOperand s x with
    | .error f => .error f
    | .ok k => .ok (s.skipIf (!s.keys[k]))

end Sys2Proof.Machine
end

