-- ==== Sys2Proof/Machine/LoadAdd.lean ====
section
/-! DEFINITION. Immediate load and add (spec/43_load_add.md): 6xkk, 7xkk. -/

namespace Sys2Proof.Machine

/-- 6xkk, LD Vx, kk (R71). -/
def execLdImm (x : Reg) (kk : Byte) (s : State) : Host.Outcome State Fault Refusal :=
  .next (s.setV x kk)

/-- 7xkk, ADD Vx, kk (R72): mod 256, and no flag. -/
def execAddImm (x : Reg) (kk : Byte) (s : State) : Host.Outcome State Fault Refusal :=
  .next (s.setV x (s.getV x + kk))

end Sys2Proof.Machine
end

