-- ==== Sys2Proof/Machine/ScreenControl.lean ====
section
/-! DEFINITION. Screen and control (spec/40_screen_control.md): 00E0, 00EE, and the rest of the 0 family (R57). In this
and every family file, s is the state after the post-fetch advance, so PC = P + 2 (R55). -/

namespace Sys2Proof.Machine

/-- 00E0, CLS (R61). -/
def execCls (s : State) : Host.Outcome State Fault Refusal :=
  .next (s.setDisp Display.clear)

/-- 00EE, RET (R62). -/
def execRet (s : State) : Host.Outcome State Fault Refusal :=
  conclude (encode .ret) s <|
    match pop s with
    | .error f => .error f
    | .ok (target, t) => .ok (t.setPc target)

/-- 0nnn other than 00E0 and 00EE: a no-op with a reported warning (R57, R112). -/
def execSys (nnn : BitVec 12) (s : State) : Host.Outcome State Fault Refusal :=
  .next (reportUnmapped (encode (.sys nnn)) s)

/-- UNMAPPED(w) for the words of no row of the table (R57). -/
def execUnmapped (w : Word) (s : State) : Host.Outcome State Fault Refusal :=
  .next (reportUnmapped w s)

end Sys2Proof.Machine
end

