-- ==== Sys2Proof/Machine/Transactions.lean ====
section
/-! DEFINITION. The host's transactions other than Step (spec/60_exceptions.md, spec/70_reset_and_hazards.md): their
effects on the state, when each is enabled (R115), and what the host is given back. Skip stands beside taking a fault,
in Machine/Ops.lean. -/

namespace Sys2Proof.Machine

/-! ### The effects -/

/-- A timer after a Tick: one less, stopping at zero (R117). -/
def tickTimer (b : Byte) : Byte := if b = 0 then 0 else b - 1

/-- Tick (R117). -/
def tick (s : State) : State := (s.setDt (tickTimer s.dt)).setSt (tickTimer s.st)

/-- The key flag writes of SetDown and SetUp: no state change for a key above 15 (R119, R120). -/
def setKeyFlag (k : Nat) (down : Bool) (s : State) : State :=
  if h : k < 16 then s.setKey ⟨k, h⟩ down else s

/-- KeyInput(h) (R122): a mapped key completes the wait of Fx0A; an unmapped one leaves the core waiting. -/
def keyInput {κ : Type} [DecidableEq κ] (table : Vector κ 16) (h : κ) (s : State) : State :=
  match s.run with
  | .waitingKey x =>
    match mapKey table h with
    | some k => (s.setV x (BitVec.ofNat 8 k.val)).setRun .running
    | none => s
  | .running => s
  | .faulted _ => s

/-- Load refuses an image of len bytes with len + 0x200 ≥ 4096 (R129, spec/90_conflicts.md C4). -/
def loadTooLarge (bytes : List Byte) : Bool := memSize ≤ bytes.length + progBase

/-- Load(bytes) (R129): the program goes to 0x200 and PC is set there; the run state is not changed. -/
def load (bytes : List Byte) (s : State) : State :=
  if loadTooLarge bytes then s
  else (s.store progBase bytes).setPc (BitVec.ofNat 16 progBase)

/-- Reset (R128): every component of spec/10_state.md to its reset value; the report log is not changed (R26), and the
model's own fields, which are the host's side of the interface, are not either (notes/assumptions/3.md), nor are the
parameters, which are no component of R29. -/
def resetCore (s : State) : State :=
  { State.resetWith s.params with log := s.log, inputs := s.inputs, rnd := s.rnd, draws := s.draws }

/-! ### Host keys of another type -/

/-- The same transaction with its host key, if it has one, under another identifier. -/
def Transaction.map {κ κ' : Type} (f : κ → κ') (t : Transaction κ) : Transaction κ' :=
  match t with
  | .step rnd => .step rnd
  | .tick => .tick
  | .setDown k => .setDown k
  | .setUp k => .setUp k
  | .keyInput h => .keyInput (f h)
  | .skip => .skip
  | .load bytes => .load bytes
  | .reset => .reset
  | .read c => .read c

/-! ### Enabledness and results -/

/-- When a transaction is enabled (R115). -/
def enabled {κ : Type} (t : Transaction κ) (r : RunState) : Bool :=
  match t, r with
  | .step _, .running => true
  | .step _, .waitingKey _ => false
  | .step _, .faulted _ => false
  | .keyInput _, .running => false
  | .keyInput _, .waitingKey _ => true
  | .keyInput _, .faulted _ => false
  | .skip, .running => false
  | .skip, .waitingKey _ => false
  | .skip, .faulted _ => true
  | .tick, _ => true
  | .setDown _, _ => true
  | .setUp _, _ => true
  | .load _, _ => true
  | .reset, _ => true
  | .read _, _ => true

/-- The value of a state component that Read returns (R116). -/
inductive Value where
  | byte (b : Byte)
  | word (w : Word)
  | count (n : Nat)
  | flag (b : Bool)
  /-- A call-stack entry, or none for an index that names no entry. -/
  | entry (w : Option Word)
  | run (r : RunState)
  | log (l : List Report)
  deriving DecidableEq, Repr

/-- Read (R116): the component's value; the state is not changed. -/
def readComponent (c : Component) (s : State) : Value :=
  match c with
  | .mem a => .byte (s.byteAt a.val)
  | .v r => .byte (s.getV r)
  | .i => .word s.i
  | .pc => .word s.pc
  | .sp => .count s.sp
  | .stack e => .entry s.stack[e]?
  | .dt => .byte s.dt
  | .st => .byte s.st
  | .key k => .flag s.keys[k]
  | .pixel px py => .flag (s.disp.pixel px py)
  | .run => .run s.run
  | .log => .log s.log

/-- What the host is given back by a transaction. -/
inductive HostResult where
  /-- The transaction took effect. -/
  | done
  /-- It was not enabled, and had no effect (R115). -/
  | notEnabled
  /-- It was refused with no state change, and nothing was logged (R119, R120, R129). -/
  | error (kind : ErrorKind) (info : Nat)
  /-- What Read returns (R116). -/
  | value (v : Value)
  deriving DecidableEq, Repr

/-- The result of a key flag transaction (R119, R120). -/
def keyFlagResult (k : Nat) : HostResult :=
  if k < 16 then .done else .error .invalidRegisterOrKeyIndex k

/-- The result the host is given for a transaction issued in state s (R114, R115). The typed results of a Step are its
reports, in the log (R26). -/
def hostResult {κ : Type} (t : Transaction κ) (s : State) : HostResult :=
  if enabled t s.run then
    match t with
    | .step _ => .done
    | .tick => .done
    | .setDown k => keyFlagResult k
    | .setUp k => keyFlagResult k
    | .keyInput _ => .done
    | .skip => .done
    | .load bytes => if loadTooLarge bytes then .error .loadTooLarge bytes.length else .done
    | .reset => .done
    | .read c => .value (readComponent c s)
  else .notEnabled

end Sys2Proof.Machine
end

