-- ==== Sys2Proof/Machine/Cycle.lean ====
section
/-! DEFINITION. One instruction cycle (R52) and one transaction of the host (R114, R115). -/

namespace Sys2Proof.Machine

/-- The phases of a Step of a Running core (R52): fetch, advance, decode, execute. A fetch fault has no opcode and is
taken from the state before the step (R53, R104). -/
def cycle (s : State) : Host.Outcome State Fault Refusal :=
  match fetch s with
  | .error f => .next (takeFault none f s)
  | .ok w => exec (decodeWord w) s.advance

/-- Step(rnd): the input byte is latched, then the cycle runs (R52). -/
def cycleWith (rnd : Byte) (s : State) : Host.Outcome State Fault Refusal :=
  cycle { s with rnd := rnd }

/-- The effect of a transaction that is enabled (R114), issued by a host with host keys of any type κ and any key table
(R7). -/
def applyTransaction {κ : Type} [DecidableEq κ] (table : Vector κ 16) (t : Transaction κ) (s : State) :
    Host.Outcome State Fault Refusal :=
  match t with
  | .step rnd => cycleWith rnd s
  | .tick => .next (tick s)
  | .setDown k => .next (setKeyFlag k true s)
  | .setUp k => .next (setKeyFlag k false s)
  | .keyInput h => .next (keyInput table h s)
  | .skip => .next (skipFault s)
  | .load bytes => .next (load bytes s)
  | .reset => .next (resetCore s)
  | .read _ => .next s

/-- A transaction issued by the host: one that is not enabled has no effect (R115). -/
def transact {κ : Type} [DecidableEq κ] (table : Vector κ 16) (t : Transaction κ) (s : State) :
    Host.Outcome State Fault Refusal :=
  if enabled t s.run then applyTransaction table t s else .next s

/-- A Step whose host supplies no byte: the byte is a free value, fresh at each draw (R8, notes/assumptions/1.md). -/
def freeStep (s : State) : Host.Outcome State Fault Refusal :=
  cycleWith (Config.freeRnd s.draws) { s with draws := s.draws + 1 }

/-- The host with nothing scheduled issues Steps: a Running core takes one, and a core that waits or is faulted stays
as it is, for ever (R115, R134). -/
def idle (s : State) : Host.Outcome State Fault Refusal :=
  match s.run with
  | .running => freeStep s
  | .waitingKey _ => .next s
  | .faulted _ => .next s

/-- Where the fetch-word helper puts an instruction: at PC, or at 0x200 where PC leaves no room for two bytes. -/
def fetchSlot (s : State) : Word := if s.pc.toNat + 1 < memSize then s.pc else BitVec.ofNat 16 progBase

end Sys2Proof.Machine
end

