-- ==== Sys2Proof/Machine/Step.lean ====
section
/-! DEFINITION. The machine's one step: the next action of the schedule the state holds (R113). -/

namespace Sys2Proof.Machine

/-- One action: the host's next transaction, or, with none scheduled, a Step. Each is atomic, and the order is the
schedule's (R113, notes/assumptions/2.md). The key table is the machine's parameter (R7). -/
def step (s : State) : Host.Outcome State Fault Refusal :=
  match s.inputs with
  | t :: rest => transact s.params.keyTable t { s with inputs := rest }
  | [] => idle s

/-- The machine with parameters p: this step, from the state after power-on with those parameters (R6, R7,
R40). -/
def machineWith (p : Config.Params) : Host.Core where
  State := State
  Fault := Fault
  Refusal := Refusal
  step := step
  reset := State.resetWith p

/-- s with the instruction of an opcode-table row where the next step fetches: its two bytes at PC (R35), the core
Running and no transaction scheduled before the Step. -/
def State.withFetchWord (s : State) (nbits w : Nat) : State :=
  { s.store (fetchSlot s).toNat (bytesOfOpcode (tableWord nbits w)) with
    pc := fetchSlot s
    run := .running
    inputs := [] }

end Sys2Proof.Machine
end

