-- ==== Sys2Proof/WellFormed.lean ====
section
/-! DEFINITION. Which terms of Instr are instructions of the machine. The field types already keep every register
index, immediate and row count in range (R47); what is left is that `sys` and `unmapped` hold only words that R57 lists. -/

namespace Sys2Proof

/-- The words of R57 outside the 0 family, as R57 lists them. -/
def reservedWord (w : Word) : Bool :=
  let op := w.extractLsb' 12 4
  let n := w.extractLsb' 0 4
  let kk := w.extractLsb' 0 8
  (op = 0x5 && n ≠ 0) ||
  (op = 0x9 && n ≠ 0) ||
  (op = 0x8 && [0x8#4, 0x9#4, 0xA#4, 0xB#4, 0xC#4, 0xD#4, 0xF#4].contains n) ||
  (op = 0xE && !([0x9E#8, 0xA1#8].contains kk)) ||
  (op = 0xF && !([0x07#8, 0x0A#8, 0x15#8, 0x18#8, 0x1E#8, 0x29#8, 0x33#8, 0x55#8, 0x65#8].contains kk))

/-- An instruction term is well formed when it names the word it stands for: `sys` is not one of the two mapped words
of the 0 family, and `unmapped` holds a word of R57 outside that family. -/
def WellFormed : Instr → Bool
  | .cls => true
  | .ret => true
  | .sys nnn => nnn ≠ 0x0E0 && nnn ≠ 0x0EE
  | .jp _ => true
  | .call _ => true
  | .seImm _ _ => true
  | .sneImm _ _ => true
  | .seReg _ _ => true
  | .ldImm _ _ => true
  | .addImm _ _ => true
  | .ldReg _ _ => true
  | .orReg _ _ => true
  | .andReg _ _ => true
  | .xorReg _ _ => true
  | .addReg _ _ => true
  | .sub _ _ => true
  | .shr _ _ => true
  | .subn _ _ => true
  | .shl _ _ => true
  | .sneReg _ _ => true
  | .ldI _ => true
  | .jpV0 _ => true
  | .rnd _ _ => true
  | .drw _ _ _ => true
  | .skp _ => true
  | .sknp _ => true
  | .ldVxDt _ => true
  | .ldVxK _ => true
  | .ldDtVx _ => true
  | .ldStVx _ => true
  | .addIVx _ => true
  | .ldFVx _ => true
  | .ldBVx _ => true
  | .ldMemVx _ => true
  | .ldVxMem _ => true
  | .unmapped w => reservedWord w

end Sys2Proof
end

