-- ==== Sys2Proof/Safety.lean ====
section
/-! DEFINITION. The terms claims are stated in: which reports a run may log (R102), the machine's invariant, the end of
a run (R135), what an instruction may change (its frame), and the pixels a sprite covers (R88). -/

namespace Sys2Proof.Machine

/-! ### Genuine reports -/

/-- The faults an instruction may raise in its execute phase, with the operands that raise them (R102). -/
def mayRaise (i : Instr) : Fault → Prop
  | .memoryOutOfBounds a =>
    memSize ≤ a ∧ ((∃ x y n, i = .drw x y n) ∨ (∃ x, i = .ldBVx x) ∨ (∃ x, i = .ldMemVx x) ∨ (∃ x, i = .ldVxMem x))
  | .stackOverflow => ∃ nnn, i = .call nnn
  | .stackUnderflow => i = .ret
  | .invalidRegisterOrKeyIndex k => 15 < k ∧ ((∃ x, i = .skp x) ∨ (∃ x, i = .sknp x))

/-- A word that decodes to no mapped instruction (R57). -/
def isUnmapped (w : Word) : Prop := (∃ nnn, decodeWord w = .sys nnn) ∨ (∃ u, decodeWord w = .unmapped u)

/-- A record of the log says what some step can have reported: a warning names an UNMAPPED word, a fetch fault an
out-of-bounds byte of the fetch at its address, another fault a fault its opcode may raise (R102, R105). -/
def Report.Genuine : Report → Prop
  | .warning w _ => isUnmapped w
  | .fault ⟨f, none, p⟩ => ∃ a, f = .memoryOutOfBounds a ∧ memSize ≤ a ∧ (a = p.toNat ∨ a = p.toNat + 1)
  | .fault ⟨f, some w, _⟩ => mayRaise (decodeWord w) f

/-! ### The invariant -/

/-- Memory is in canonical form for the machine's FONT. -/
abbrev State.memWf (s : State) : Prop := Memory.wf s.params.font s.mem

/-- The call stack has STACK_DEPTH entries, and SP never exceeds capacity (R17, R18). -/
def State.stackWf (s : State) : Prop := s.stack.length = s.params.stackDepth ∧ s.sp ≤ s.params.stackDepth

/-- What holds after reset and is kept by every step and transaction: memory is in canonical form, the call
stack is within its capacity, the fault that stopped the core is in the log, and every report is genuine. -/
structure State.Inv (s : State) : Prop where
  memWf : s.memWf
  stackWf : s.stackWf
  faultLogged : ∀ record, s.run = .faulted record → .fault record ∈ s.log
  reportsGenuine : ∀ r ∈ s.log, r.Genuine

/-! ### Runs -/

/-- No fault was ever reported: the premise a claim about a run takes (R26). -/
def State.noFaultReported (s : State) : Prop := ∀ record, .fault record ∉ s.log

/-- No warning was ever reported. -/
def State.noWarningReported (s : State) : Prop := ∀ w a, .warning w a ∉ s.log

/-- The halt loop (R135 (a)): Running, and the word at PC is 1nnn with nnn = PC. -/
def State.haltLoop (s : State) : Prop :=
  s.run = .running ∧ ∃ nnn, fetch s = .ok (formatA 0x1 nnn) ∧ zextNNN nnn = s.pc

/-- The end of a run (R135): the halt loop, or faulted. -/
def State.runEnded (s : State) : Prop := s.haltLoop ∨ ∃ record, s.run = .faulted record

/-- A run that ended by a fault has failed (R135). -/
def State.runFailed (s : State) : Prop := ∃ record, s.run = .faulted record

/-! ### Frames: t is s but for the components named, and every byte of memory but those stored to reads as before -/

/-- Every byte of memory reads as before. -/
def sameMemory (s t : State) : Prop := ∀ a, t.byteAt a = s.byteAt a

/-- Only general registers may differ. -/
def onlyV (s t : State) : Prop := t = { s with v := t.v } ∧ sameMemory s t

/-- Only PC may differ. -/
def onlyPc (s t : State) : Prop := t = { s with pc := t.pc } ∧ sameMemory s t

/-- Only I may differ. -/
def onlyI (s t : State) : Prop := t = { s with i := t.i } ∧ sameMemory s t

/-- Only DT may differ. -/
def onlyDt (s t : State) : Prop := t = { s with dt := t.dt } ∧ sameMemory s t

/-- Only ST may differ. -/
def onlySt (s t : State) : Prop := t = { s with st := t.st } ∧ sameMemory s t

/-- Only the run state may differ. -/
def onlyRun (s t : State) : Prop := t = { s with run := t.run } ∧ sameMemory s t

/-- Only the display may differ. -/
def onlyDisp (s t : State) : Prop := t = { s with disp := t.disp } ∧ sameMemory s t

/-- Only the display and general registers may differ. -/
def onlyDispV (s t : State) : Prop := t = { s with disp := t.disp, v := t.v } ∧ sameMemory s t

/-- Only PC, SP and the stack's storage may differ. -/
def onlyPcStack (s t : State) : Prop := t = { s with pc := t.pc, sp := t.sp, stack := t.stack } ∧ sameMemory s t

/-- Only the report log may differ. -/
def onlyLog (s t : State) : Prop := t = { s with log := t.log } ∧ sameMemory s t

/-- Only memory may differ, and of it only the count bytes from base on. -/
def onlyBytes (base count : Nat) (s t : State) : Prop :=
  t = { s with mem := t.mem } ∧ ∀ a, (a < base ∨ base + count ≤ a) → t.byteAt a = s.byteAt a

/-- The state after a fault of the execute phase (R104), where s is the state after the post-fetch advance and w the
fetched word: the advance is undone, run is Faulted with the record, the record is in the log, and nothing else changes. -/
def afterFault (w : Word) (f : Fault) (s : State) : State :=
  { s with
    pc := s.pc - 2
    run := .faulted ⟨f, some w, s.pc - 2⟩
    log := s.log ++ [.fault ⟨f, some w, s.pc - 2⟩] }

/-- How many bytes from mem[I] on an instruction reads or writes (R37); none for an instruction that makes no data
access. -/
def accessCount : Instr → Option Nat
  | .drw _ _ n => some n.val
  | .ldBVx _ => some 3
  | .ldMemVx x => some (x.val + 1)
  | .ldVxMem x => some (x.val + 1)
  | _ => none

/-! ### Who acts next -/

/-- The next action is a Step of a Running core that runs instruction i. -/
def runsNext (s : State) (i : Instr) : Prop :=
  s.run = .running ∧ (∃ w, fetch s = .ok w ∧ decodeWord w = i) ∧
    (s.inputs = [] ∨ ∃ rnd rest, s.inputs = .step rnd :: rest)

/-- The next action is the host's transaction tr. -/
def hostNext (s : State) (tr : HostTransaction) : Prop := ∃ rest, s.inputs = tr :: rest

/-! ### Sprites -/

/-- Pixel (px, py) is under a 1 bit of the n-row sprite at mem[I], drawn at (V[x], V[y]) with wrap-around (R88). -/
def spriteCovers (s : State) (x y : Reg) (n : Nat) (px : Col) (py : Row) : Prop :=
  ∃ r b : Nat, r < n ∧ b < 8 ∧ (s.byteAt (s.effAddr r)).getLsbD (7 - b) = true ∧
    px.val = ((s.getV x).toNat + b) % 64 ∧ py.val = ((s.getV y).toNat + r) % 32

end Sys2Proof.Machine
end

