-- ==== Sys2Proof/Certificates/Slice0/Obligations.lean ====
section
/-! DEFINITION. The statements about the machine, for the provers. In a statement about `exec`, s is the state after the
post-fetch advance: s.pc is P + 2 for an opcode at P (R54, R55). -/

open Sys2Proof Sys2Proof.Machine

/-! ### Encoding -/

/-- Every well-formed instruction, with every operand at every value, is what its word and its bytes decode to (R49-R51). -/
def Obligations.DecodeOfEncodeIsTheInstruction : Prop :=
  ∀ i : Instr, WellFormed i = true →
    decodeWord (encode i) = i ∧ ∀ rest, decodeBytes (encodeBytes i ++ rest) = .ok (i, rest)

/-- Every 16-bit word decodes to a well-formed instruction, of which it is the one word (R51, R58). -/
def Obligations.EveryWordEncodesItsDecoding : Prop :=
  ∀ w : Word, WellFormed (decodeWord w) = true ∧ encode (decodeWord w) = w

/-- The UNMAPPED words are those R57 lists, in terms of the word as a number. -/
def Obligations.UnmappedWordsAreThoseListed : Prop :=
  ∀ w : Word, isUnmapped w ↔
    (w.toNat / 4096 = 0 ∧ w.toNat ≠ 0x00E0 ∧ w.toNat ≠ 0x00EE) ∨
    ((w.toNat / 4096 = 5 ∨ w.toNat / 4096 = 9) ∧ w.toNat % 16 ≠ 0) ∨
    (w.toNat / 4096 = 8 ∧ 8 ≤ w.toNat % 16 ∧ w.toNat % 16 ≠ 0xE) ∨
    (w.toNat / 4096 = 0xE ∧ w.toNat % 256 ∉ [0x9E, 0xA1]) ∨
    (w.toNat / 4096 = 0xF ∧ w.toNat % 256 ∉ [0x07, 0x0A, 0x15, 0x18, 0x1E, 0x29, 0x33, 0x55, 0x65])

/-- Words written out from the encodings of the table decode to their instructions (R50). -/
def Obligations.SampleWordsDecode : Prop :=
  decodeWord 0x00E0 = .cls ∧ decodeWord 0x2345 = .call 0x345 ∧ decodeWord 0x3A05 = .seImm 0xA 0x05 ∧
  decodeWord 0x7AFF = .addImm 0xA 0xFF ∧ decodeWord 0x8AB4 = .addReg 0xA 0xB ∧ decodeWord 0x8128 = .unmapped 0x8128 ∧
  decodeWord 0xA123 = .ldI 0x123 ∧ decodeWord 0xD125 = .drw 1 2 5 ∧ decodeWord 0xE4A1 = .sknp 4 ∧
  decodeWord 0xF633 = .ldBVx 6 ∧ decodeWord 0x0123 = .sys 0x123

/-- A decoder consumes exactly two bytes, the first the high byte (R46, R35). -/
def Obligations.DecoderTakesTwoBytesBigEndian : Prop :=
  ∀ (hi lo : Byte) (rest : List Byte), ∃ w : Word,
    w.toNat = 256 * hi.toNat + lo.toNat ∧ decodeBytes (hi :: lo :: rest) = .ok (decodeWord w, rest)

/-! ### The instruction cycle -/

/-- When the two bytes at PC decode to i, a Step of a Running core is exec of i at the state whose PC has advanced by 2
(R52, R54): with the byte the host's Step carries, or, with nothing scheduled, with a free byte. -/
def Obligations.StepRunsTheDecodedInstruction : Prop :=
  ∀ (s : State) (i : Instr), s.run = .running → s.pc.toNat + 1 ≤ 0xFFF →
    decodeBytes [s.byteAt s.pc.toNat, s.byteAt (s.pc.toNat + 1)] = .ok (i, []) →
    (∀ rnd rest, s.inputs = .step rnd :: rest →
      step s = exec i { s with inputs := rest, rnd := rnd, pc := s.pc + 2 }) ∧
    (s.inputs = [] →
      step s = exec i { s with rnd := Config.freeRnd s.draws, draws := s.draws + 1, pc := s.pc + 2 })

/-- Fetch(P) (R53): the big-endian word at P, or the fault at P or at P + 1; the record of a fetch fault has no opcode. -/
def Obligations.FetchReadsTheWordAtPc : Prop :=
  ∀ s : State,
    (s.pc.toNat + 1 ≤ 0xFFF → ∃ w, fetch s = .ok w ∧
      w.toNat = 256 * (s.byteAt s.pc.toNat).toNat + (s.byteAt (s.pc.toNat + 1)).toNat) ∧
    (0xFFF < s.pc.toNat → fetch s = .error (.memoryOutOfBounds s.pc.toNat)) ∧
    (s.pc.toNat = 0xFFF → fetch s = .error (.memoryOutOfBounds 0x1000)) ∧
    (∀ f rnd rest, s.run = .running → s.inputs = .step rnd :: rest → fetch s = .error f →
      step s = .next { s with
        inputs := rest, rnd := rnd
        run := .faulted ⟨f, none, s.pc⟩, log := s.log ++ [.fault ⟨f, none, s.pc⟩] })

/-- A fault in any phase of a step leaves the state before the step, but for the run state and the log (R104), and its
record holds PC and the fetched word, or no opcode for a fetch fault. The schedule, the latched byte and the count of draws
are the model's own fields. -/
def Obligations.FaultLeavesTheStateBeforeTheStep : Prop :=
  ∀ (s t : State) (record : FaultRecord), s.run = .running → step s = .next t → t.run = .faulted record →
    t = { s with
      inputs := t.inputs, rnd := t.rnd, draws := t.draws
      run := .faulted record, log := s.log ++ [.fault record] } ∧
    record.addr = s.pc ∧
    (∀ w, fetch s = .ok w → record.opcode = some w ∧ mayRaise (decodeWord w) record.fault) ∧
    (∀ f, fetch s = .error f → record.opcode = none ∧ record.fault = f)

/-- How each instruction at P leaves PC (R16), where s is the state before the step, with PC = P. -/
def Obligations.PcAfterEachInstruction : Prop :=
  ∀ (i : Instr) (s t : State), s.run = .running → exec i { s with pc := s.pc + 2 } = .next t →
    (∀ record, t.run = .faulted record → t.pc = s.pc) ∧
    ((∀ record, t.run ≠ .faulted record) →
      match i with
      | .ret => ∃ k : Nat, s.sp = k + 1 ∧ t.pc = s.stackAt k
      | .jp nnn => t.pc.toNat = nnn.toNat
      | .call nnn => t.pc.toNat = nnn.toNat ∧
          s.sp < s.params.stackDepth ∧ t.stack = s.stack.set s.sp (s.pc + 2)
      | .jpV0 nnn => t.pc.toNat = nnn.toNat + (s.getV 0).toNat
      | .seImm x kk => t.pc = if s.getV x = kk then s.pc + 4 else s.pc + 2
      | .sneImm x kk => t.pc = if s.getV x ≠ kk then s.pc + 4 else s.pc + 2
      | .seReg x y => t.pc = if s.getV x = s.getV y then s.pc + 4 else s.pc + 2
      | .sneReg x y => t.pc = if s.getV x ≠ s.getV y then s.pc + 4 else s.pc + 2
      | .skp x => ∃ k : Key, (s.getV x).toNat = k.val ∧ t.pc = if s.keys[k] then s.pc + 4 else s.pc + 2
      | .sknp x => ∃ k : Key, (s.getV x).toNat = k.val ∧ t.pc = if s.keys[k] then s.pc + 2 else s.pc + 4
      | .ldVxK x => t.pc = s.pc + 2 ∧ t.run = .waitingKey x
      | _ => t.pc = s.pc + 2)

/-! ### The machine as a whole -/

/-- The state after power-on (R29, R127), with any parameters: FONT, whose glyph 0 is fixed and whose other rows hold their
pixel columns in bits 7..4 and zeros below (R40), zeros above it, and every other component zero or false. The model's own
three fields are empty (the model's choice, notes/assumptions/3.md). This hardware's parameters are STACK_DEPTH = 16 (R6),
the default key table (R7) and the default font, whose glyphs 1 to F R40 adopts from general knowledge
(notes/assumptions/4.md). -/
def Obligations.ResetStateIsAsSpecified : Prop :=
  (∀ p : Config.Params, let s := State.resetWith p
    (List.range 5).map s.byteAt = [0xF0, 0x90, 0x90, 0x90, 0xF0] ∧
    (∀ (d : Fin 15) (r : Fin 5), (s.byteAt (5 * (d.val + 1) + r.val)).toNat = 16 * p.font[d][r].toNat) ∧
    (∀ a, 80 ≤ a → s.byteAt a = 0) ∧ (∀ x, s.getV x = 0) ∧ s.i = 0 ∧ s.pc = 0 ∧ s.sp = 0 ∧
    s.stack = List.replicate p.stackDepth 0 ∧ s.dt = 0 ∧ s.st = 0 ∧
    (∀ k : Key, s.keys[k] = false) ∧ (∀ px py, s.disp.pixel px py = false) ∧ s.run = .running ∧ s.log = [] ∧
    s.params = p ∧ s.inputs = [] ∧ s.rnd = 0 ∧ s.draws = 0 ∧ (machineWith p).step = step ∧ (machineWith p).reset = s) ∧
  core = machineWith State.reset.params ∧ State.reset.params.stackDepth = 16 ∧
  State.reset.params.keyTable.toList = "0123456789abcdef".toList.map Config.HostKey.char ∧
  (List.range 80).map State.reset.byteAt =
    [0xF0, 0x90, 0x90, 0x90, 0xF0, 0x20, 0x60, 0x20, 0x20, 0x70, 0xF0, 0x10, 0xF0, 0x80, 0xF0, 0xF0, 0x10, 0xF0, 0x10,
     0xF0, 0x90, 0x90, 0xF0, 0x10, 0x10, 0xF0, 0x80, 0xF0, 0x10, 0xF0, 0xF0, 0x80, 0xF0, 0x90, 0xF0, 0xF0, 0x10, 0x20,
     0x40, 0x40, 0xF0, 0x90, 0xF0, 0x90, 0xF0, 0xF0, 0x90, 0xF0, 0x10, 0xF0, 0xF0, 0x90, 0xF0, 0x90, 0x90, 0xE0, 0x90,
     0xE0, 0x90, 0xE0, 0xF0, 0x80, 0x80, 0x80, 0xF0, 0xE0, 0x90, 0x90, 0x90, 0xE0, 0xF0, 0x80, 0xF0, 0x80, 0xF0, 0xF0,
     0x80, 0xF0, 0x80, 0x80]

/-- The state after power-on satisfies the invariant, on this hardware and with any parameters (R29, R18, R40). -/
def Obligations.ResetSatisfiesTheInvariant : Prop := State.reset.Inv ∧ ∀ p : Config.Params, (State.resetWith p).Inv

/-- Every action, a Step or a host transaction in any order, keeps the invariant: memory stays canonical, SP never
exceeds capacity, whatever STACK_DEPTH is, the fault that stopped the core stays logged, and every logged report is one
its opcode may give (R18, R102, R104, R26). -/
def Obligations.EveryStepKeepsTheInvariant : Prop :=
  ∀ s t : State, s.Inv → step s = .next t → t.Inv

/-- No action stops the machine: every instruction has an effect, and every fault is taken (R56, R104). And no action
changes its parameters, STACK_DEPTH, KEY_TABLE and FONT (R6, R7, R40). -/
def Obligations.EveryStepAnswersANextState : Prop :=
  ∀ s : State, ∃ t, step s = .next t ∧ t.params = s.params

/-- No action removes or rewrites an entry of the report log, and at most one is added (R26, R106). -/
def Obligations.LogGrowsByAtMostOneReport : Prop :=
  ∀ s t : State, step s = .next t → t.log = s.log ∨ ∃ r, t.log = s.log ++ [r]

/-- Nothing but a mapped key input or Reset takes the core out of a key wait (R134, R126). -/
def Obligations.KeyWaitEndsOnlyByMappedKeyOrReset : Prop :=
  ∀ (s t : State) (x : Reg), s.run = .waitingKey x → step s = .next t → t.run ≠ .waitingKey x →
    t.run = .running ∧
      (hostNext s .reset ∨ ∃ h k, hostNext s (.keyInput h) ∧ mapKey s.params.keyTable h = some k ∧
        t.getV x = BitVec.ofNat 8 k.val)

/-- Skip and Reset are the only ways out of Faulted, and no second fault arises there (R108). -/
def Obligations.FaultedEndsOnlyBySkipOrReset : Prop :=
  ∀ (s t : State) (record : FaultRecord), s.run = .faulted record → step s = .next t →
    t.log = s.log ∧ (t.run ≠ .faulted record → t.run = .running ∧ (hostNext s .skip ∨ hostNext s .reset))

/-- The enabledness table (R115), and that a transaction that is not enabled has no effect: it is only taken off the
model's schedule. With nothing scheduled a core that waits or is faulted stays as it is. -/
def Obligations.DisabledTransactionsHaveNoEffect : Prop :=
  (∀ (κ : Type) (r : RunState),
    (∀ b, enabled (.step b : Transaction κ) r = true ↔ r = .running) ∧
    (∀ h, enabled (.keyInput h : Transaction κ) r = true ↔ ∃ x, r = .waitingKey x) ∧
    (enabled (.skip : Transaction κ) r = true ↔ ∃ record, r = .faulted record) ∧
    enabled (.tick : Transaction κ) r = true ∧ (∀ k, enabled (.setDown k : Transaction κ) r = true) ∧
    (∀ k, enabled (.setUp k : Transaction κ) r = true) ∧ (∀ bytes, enabled (.load bytes : Transaction κ) r = true) ∧
    enabled (.reset : Transaction κ) r = true ∧ ∀ c, enabled (.read c : Transaction κ) r = true) ∧
  (∀ (s : State) (tr : HostTransaction) (rest : List HostTransaction), s.inputs = tr :: rest → enabled tr s.run = false →
    step s = .next { s with inputs := rest } ∧ hostResult tr s = .notEnabled) ∧
  (∀ s : State, s.inputs = [] → s.run ≠ .running → step s = .next s)

/-- The self-jump executes for ever (R134, R135): a Step of a halt loop, the host's scheduled one with any byte or the one
an idle host issues (the model's choice, notes/assumptions/2.md), is a halt loop again, and only the model's own schedule
and random input have moved. -/
def Obligations.SelfJumpRunsForEver : Prop :=
  ∀ s : State, s.haltLoop → (s.inputs = [] ∨ ∃ rnd rest, s.inputs = .step rnd :: rest) →
    ∃ t, step s = .next t ∧ t.haltLoop ∧
      t = { s with inputs := s.inputs.tail, rnd := t.rnd, draws := t.draws }

/-- Only 2nnn, 00EE and Reset change SP or the stack's storage (R18, R17). -/
def Obligations.StackChangesOnlyByCallRetReset : Prop :=
  ∀ s t : State, step s = .next t → (t.sp ≠ s.sp ∨ t.stack ≠ s.stack) →
    runsNext s .ret ∨ (∃ nnn, runsNext s (.call nnn)) ∨ hostNext s .reset

/-- What writes I, DT and ST, and that DT rises only by Fx15 (R13, R118, R133). -/
def Obligations.IndexAndTimersChangeOnlyByTheirWriters : Prop :=
  ∀ s t : State, step s = .next t →
    (t.i ≠ s.i → (∃ nnn, runsNext s (.ldI nnn)) ∨ (∃ x, runsNext s (.addIVx x)) ∨ (∃ x, runsNext s (.ldFVx x)) ∨
      hostNext s .reset) ∧
    (t.dt ≠ s.dt → (∃ x, runsNext s (.ldDtVx x)) ∨ hostNext s .tick ∨ hostNext s .reset) ∧
    (t.st ≠ s.st → (∃ x, runsNext s (.ldStVx x)) ∨ hostNext s .tick ∨ hostNext s .reset) ∧
    (s.dt.toNat < t.dt.toNat → ∃ x, runsNext s (.ldDtVx x))

/-- What writes memory, the display and the key flags (R37, R123, R22). -/
def Obligations.MemoryDisplayKeysChangeOnlyByTheirWriters : Prop :=
  ∀ s t : State, step s = .next t →
    (∀ a, t.byteAt a ≠ s.byteAt a → (∃ x, runsNext s (.ldBVx x)) ∨ (∃ x, runsNext s (.ldMemVx x)) ∨
      (∃ bytes, hostNext s (.load bytes)) ∨ hostNext s .reset) ∧
    (t.disp ≠ s.disp → runsNext s .cls ∨ (∃ x y n, runsNext s (.drw x y n)) ∨ hostNext s .reset) ∧
    (t.keys ≠ s.keys → (∃ k, hostNext s (.setDown k)) ∨ (∃ k, hostNext s (.setUp k)) ∨ hostNext s .reset)

/-! ### Screen, control, jumps and calls -/

/-- 00E0 clears the display (R61). -/
def Obligations.ClsClearsTheDisplay : Prop :=
  decodeWord 0x00E0 = .cls ∧
  ∀ s : State, ∃ t, exec .cls s = .next t ∧ (∀ px py, t.disp.pixel px py = false) ∧ onlyDisp s t

/-- 00EE pops the return address into PC, or faults on an empty stack (R62, R20); an address above 0xFFE makes the next
fetch fault. -/
def Obligations.RetPopsTheReturnAddress : Prop :=
  decodeWord 0x00EE = .ret ∧
  ∀ s : State,
    (∀ k : Nat, s.sp = k + 1 →
      ∃ t, exec .ret s = .next t ∧ t.pc = s.stackAt k ∧ t.sp = k ∧ t.stack = s.stack ∧ onlyPcStack s t ∧
        (0xFFE < t.pc.toNat → ∃ a, fetch t = .error (.memoryOutOfBounds a))) ∧
    (s.sp = 0 → exec .ret s = .next (afterFault 0x00EE .stackUnderflow s))

/-- 1nnn jumps to nnn, and to itself where nnn is P (R63); from 0xFFF the next fetch faults at 0x1000. -/
def Obligations.JpSetsPc : Prop :=
  ∀ (nnn : BitVec 12) (s : State), decodeWord (formatA 0x1 nnn) = .jp nnn ∧
    ∃ t, exec (.jp nnn) s = .next t ∧ t.pc.toNat = nnn.toNat ∧ onlyPc s t ∧
      (nnn = 0xFFF → fetch t = .error (.memoryOutOfBounds 0x1000)) ∧
      (nnn.toNat = (s.pc - 2).toNat → t.pc = s.pc - 2 ∧ exec (.jp nnn) t.advance = .next t)

/-- 2nnn pushes P + 2 and jumps, or faults on a full stack, for every STACK_DEPTH (R64, R19, R6). -/
def Obligations.CallPushesTheReturnAddress : Prop :=
  ∀ (nnn : BitVec 12) (s : State), decodeWord (formatA 0x2 nnn) = .call nnn ∧
    (s.sp < s.params.stackDepth →
      ∃ t, exec (.call nnn) s = .next t ∧ t.pc.toNat = nnn.toNat ∧ t.sp = s.sp + 1 ∧
        (s.stackWf → ∀ k, t.stackAt k = if k = s.sp then s.pc else s.stackAt k) ∧
        t.stack.length = s.stack.length ∧ onlyPcStack s t) ∧
    (s.sp = s.params.stackDepth →
      exec (.call nnn) s = .next (afterFault (formatA 0x2 nnn) .stackOverflow s))

/-- Bnnn jumps to nnn + V0, not truncated to 12 bits (R65); a sum above 0xFFE makes the next fetch fault. -/
def Obligations.JpV0AddsV0 : Prop :=
  ∀ (nnn : BitVec 12) (s : State), decodeWord (formatA 0xB nnn) = .jpV0 nnn ∧
    ∃ t, exec (.jpV0 nnn) s = .next t ∧ t.pc.toNat = nnn.toNat + (s.getV 0).toNat ∧ onlyPc s t ∧
      (0xFFE < t.pc.toNat → ∃ a, fetch t = .error (.memoryOutOfBounds a))

/-- CALL then RET comes back to the opcode after the CALL, with SP as it was, whatever ran between and left the stack
alone (R64, R62, R54). -/
def Obligations.RetAfterCallReturns : Prop :=
  ∀ (nnn : BitVec 12) (s t m : State), s.stackWf → s.sp < s.params.stackDepth → exec (.call nnn) s = .next t →
    m.sp = t.sp → m.stack = t.stack → ∃ u, exec .ret m = .next u ∧ u.pc = s.pc ∧ u.sp = s.sp

/-! ### Skips, loads and adds -/

/-- 3xkk and 4xkk (R67, R68): a taken skip adds 2 to the advanced PC. -/
def Obligations.SkipsOnAnImmediate : Prop :=
  ∀ (x : Reg) (kk : Byte) (s : State),
    decodeWord (formatXK 0x3 x kk) = .seImm x kk ∧ decodeWord (formatXK 0x4 x kk) = .sneImm x kk ∧
    (∃ t, exec (.seImm x kk) s = .next t ∧ onlyPc s t ∧
      t.pc.toNat = if (s.getV x).toNat = kk.toNat then (s.pc.toNat + 2) % 65536 else s.pc.toNat) ∧
    (∃ t, exec (.sneImm x kk) s = .next t ∧ onlyPc s t ∧
      t.pc.toNat = if (s.getV x).toNat = kk.toNat then s.pc.toNat else (s.pc.toNat + 2) % 65536)

/-- 5xy0 and 9xy0 (R69, R70), and the words with a nonzero low nibble, which are UNMAPPED. -/
def Obligations.SkipsOnARegister : Prop :=
  ∀ (x y : Reg) (s : State),
    (decodeWord (formatXY 0x5 x y 0) = .seReg x y ∧ decodeWord (formatXY 0x9 x y 0) = .sneReg x y ∧
      ∀ n : BitVec 4, n ≠ 0 → isUnmapped (formatXY 0x5 x y n) ∧ isUnmapped (formatXY 0x9 x y n)) ∧
    (∃ t, exec (.seReg x y) s = .next t ∧ onlyPc s t ∧
      t.pc.toNat = if (s.getV x).toNat = (s.getV y).toNat then (s.pc.toNat + 2) % 65536 else s.pc.toNat) ∧
    (∃ t, exec (.sneReg x y) s = .next t ∧ onlyPc s t ∧
      t.pc.toNat = if (s.getV x).toNat = (s.getV y).toNat then s.pc.toNat else (s.pc.toNat + 2) % 65536)

/-- 6xkk loads a byte (R71). -/
def Obligations.LdImmLoadsTheByte : Prop :=
  ∀ (x : Reg) (kk : Byte) (s : State), decodeWord (formatXK 0x6 x kk) = .ldImm x kk ∧
    ∃ t, exec (.ldImm x kk) s = .next t ∧ t.getV x = kk ∧ (∀ r, r ≠ x → t.getV r = s.getV r) ∧ onlyV s t

/-- 7xkk adds a byte mod 256 and writes no carry (R72). -/
def Obligations.AddImmAddsWithoutCarry : Prop :=
  ∀ (x : Reg) (kk : Byte) (s : State), decodeWord (formatXK 0x7 x kk) = .addImm x kk ∧
    ∃ t, exec (.addImm x kk) s = .next t ∧ (t.getV x).toNat = ((s.getV x).toNat + kk.toNat) % 256 ∧
      (∀ r, r ≠ x → t.getV r = s.getV r) ∧ onlyV s t

/-! ### The ALU -/

/-- 8xy0 to 8xy3 write only V[x]: a copy, and the bitwise OR, AND and XOR (R75-R79). -/
def Obligations.CopyAndLogicWriteOnlyVx : Prop :=
  ∀ (x y : Reg) (s : State),
    (decodeWord (formatXY 0x8 x y 0x0) = .ldReg x y ∧ decodeWord (formatXY 0x8 x y 0x1) = .orReg x y ∧
      decodeWord (formatXY 0x8 x y 0x2) = .andReg x y ∧ decodeWord (formatXY 0x8 x y 0x3) = .xorReg x y) ∧
    (∃ t, exec (.ldReg x y) s = .next t ∧ t.getV x = s.getV y ∧
      (∀ r, r ≠ x → t.getV r = s.getV r) ∧ onlyV s t) ∧
    (∃ t, exec (.orReg x y) s = .next t ∧
      (∀ j < 8, (t.getV x).getLsbD j = ((s.getV x).getLsbD j || (s.getV y).getLsbD j)) ∧
      (∀ r, r ≠ x → t.getV r = s.getV r) ∧ onlyV s t) ∧
    (∃ t, exec (.andReg x y) s = .next t ∧
      (∀ j < 8, (t.getV x).getLsbD j = ((s.getV x).getLsbD j && (s.getV y).getLsbD j)) ∧
      (∀ r, r ≠ x → t.getV r = s.getV r) ∧ onlyV s t) ∧
    (∃ t, exec (.xorReg x y) s = .next t ∧
      (∀ j < 8, (t.getV x).getLsbD j = ((s.getV x).getLsbD j != (s.getV y).getLsbD j)) ∧
      (∀ r, r ≠ x → t.getV r = s.getV r) ∧ onlyV s t)

/-- 8xy4: the sum mod 256, and the carry in VF, which holds when x = 0xF (R80, R74). -/
def Obligations.AddRegSetsSumAndCarry : Prop :=
  ∀ (x y : Reg) (s : State), decodeWord (formatXY 0x8 x y 0x4) = .addReg x y ∧
    ∃ t, exec (.addReg x y) s = .next t ∧
      (t.getV vf).toNat = (if 255 < (s.getV x).toNat + (s.getV y).toNat then 1 else 0) ∧
      (x ≠ vf → (t.getV x).toNat = ((s.getV x).toNat + (s.getV y).toNat) % 256) ∧
      (∀ r, r ≠ x → r ≠ vf → t.getV r = s.getV r) ∧ onlyV s t

/-- 8xy5: the difference mod 256, and the no-borrow flag in VF, which holds when x = 0xF (R81, R74). -/
def Obligations.SubSetsDifferenceAndNoBorrow : Prop :=
  ∀ (x y : Reg) (s : State), decodeWord (formatXY 0x8 x y 0x5) = .sub x y ∧
    ∃ t, exec (.sub x y) s = .next t ∧
      (t.getV vf).toNat = (if (s.getV y).toNat ≤ (s.getV x).toNat then 1 else 0) ∧
      (x ≠ vf → ((t.getV x).toNat : Int) = (((s.getV x).toNat : Int) - (s.getV y).toNat) % 256) ∧
      (∀ r, r ≠ x → r ≠ vf → t.getV r = s.getV r) ∧ onlyV s t

/-- 8xy6: V[x] shifted right by one, the bit shifted out in VF, and y without a role (R82, R74). -/
def Obligations.ShrShiftsVxRight : Prop :=
  ∀ (x y : Reg) (s : State), decodeWord (formatXY 0x8 x y 0x6) = .shr x y ∧
    ∃ t, exec (.shr x y) s = .next t ∧ (t.getV vf).toNat = (s.getV x).toNat % 2 ∧
      (x ≠ vf → (t.getV x).toNat = (s.getV x).toNat / 2) ∧
      (∀ r, r ≠ x → r ≠ vf → t.getV r = s.getV r) ∧ onlyV s t ∧ ∀ y', exec (.shr x y') s = .next t

/-- 8xy7: the reverse difference mod 256, and its no-borrow flag in VF (R83, R74). -/
def Obligations.SubnSetsReverseDifference : Prop :=
  ∀ (x y : Reg) (s : State), decodeWord (formatXY 0x8 x y 0x7) = .subn x y ∧
    ∃ t, exec (.subn x y) s = .next t ∧
      (t.getV vf).toNat = (if (s.getV x).toNat ≤ (s.getV y).toNat then 1 else 0) ∧
      (x ≠ vf → ((t.getV x).toNat : Int) = (((s.getV y).toNat : Int) - (s.getV x).toNat) % 256) ∧
      (∀ r, r ≠ x → r ≠ vf → t.getV r = s.getV r) ∧ onlyV s t

/-- 8xyE: V[x] shifted left by one mod 256, the bit shifted out in VF, and y without a role (R84, R74). -/
def Obligations.ShlShiftsVxLeft : Prop :=
  ∀ (x y : Reg) (s : State), decodeWord (formatXY 0x8 x y 0xE) = .shl x y ∧
    ∃ t, exec (.shl x y) s = .next t ∧ (t.getV vf).toNat = (s.getV x).toNat / 128 ∧
      (x ≠ vf → (t.getV x).toNat = 2 * (s.getV x).toNat % 256) ∧
      (∀ r, r ≠ x → r ≠ vf → t.getV r = s.getV r) ∧ onlyV s t ∧ ∀ y', exec (.shl x y') s = .next t

/-! ### Index, random, draw -/

/-- Annn loads I (R86). -/
def Obligations.LdILoadsTheAddress : Prop :=
  ∀ (nnn : BitVec 12) (s : State), decodeWord (formatA 0xA nnn) = .ldI nnn ∧
    ∃ t, exec (.ldI nnn) s = .next t ∧ t.i.toNat = nnn.toNat ∧ onlyI s t

/-- Cxkk masks the byte the Step carries (R87, R8): for every byte a host may inject, and every mask. -/
def Obligations.RndMasksTheInjectedByte : Prop :=
  ∀ (x : Reg) (kk : Byte) (s : State), decodeWord (formatXK 0xC x kk) = .rnd x kk ∧
    (∃ t, exec (.rnd x kk) s = .next t ∧
      (∀ j < 8, (t.getV x).getLsbD j = (s.rnd.getLsbD j && kk.getLsbD j)) ∧
      (∀ r, r ≠ x → t.getV r = s.getV r) ∧ onlyV s t) ∧
    (∀ rnd rest, s.run = .running → s.inputs = .step rnd :: rest → fetch s = .ok (formatXK 0xC x kk) →
      ∃ t, step s = .next t ∧ t.getV x = rnd &&& kk)

/-- Dxyn on in-bounds rows: each pixel under a 1 bit of the sprite is inverted, the others are unchanged, and VF says
whether a lit pixel was turned off; a row out of bounds faults at the lowest such address and draws nothing (R88, R89).
With n = 0 no address is read and the instruction completes in every state. -/
def Obligations.DrwInvertsThePixelsItCovers : Prop :=
  ∀ (x y : Reg) (n : Fin 16) (s : State), decodeWord (formatXY 0xD x y (nibble n)) = .drw x y n ∧
    ((∀ r < n.val, s.effAddr r ≤ 0xFFF) →
      ∃ t, exec (.drw x y n) s = .next t ∧
        (∀ px py, spriteCovers s x y n px py → t.disp.pixel px py = !s.disp.pixel px py) ∧
        (∀ px py, ¬ spriteCovers s x y n px py → t.disp.pixel px py = s.disp.pixel px py) ∧
        ((∃ px py, spriteCovers s x y n px py ∧ s.disp.pixel px py = true) → t.getV vf = 1) ∧
        ((¬ ∃ px py, spriteCovers s x y n px py ∧ s.disp.pixel px py = true) → t.getV vf = 0) ∧
        (∀ r, r ≠ vf → t.getV r = s.getV r) ∧ onlyDispV s t) ∧
    (∀ r < n.val, 0xFFF < s.effAddr r → (∀ k < r, s.effAddr k ≤ 0xFFF) →
      exec (.drw x y n) s =
        .next (afterFault (formatXY 0xD x y (nibble n)) (.memoryOutOfBounds (s.effAddr r)) s))

/-- Drawing the same sprite at the same place twice restores the display, and the second draw collides iff the sprite
covers a pixel that was clear (R88; see notes/assumptions/8.md on R89's last corner case). The coordinates are not in VF,
which the first draw writes. -/
def Obligations.DrawingTwiceRestoresTheDisplay : Prop :=
  ∀ (x y : Reg) (n : Fin 16) (s : State), x ≠ vf → y ≠ vf → (∀ r < n.val, s.effAddr r ≤ 0xFFF) →
    ∃ t u, exec (.drw x y n) s = .next t ∧ exec (.drw x y n) t = .next u ∧ u.disp = s.disp ∧
      (u.getV vf = 1 ↔ ∃ px py, spriteCovers s x y n px py ∧ s.disp.pixel px py = false)

/-! ### Keys and timers -/

/-- Ex9E and ExA1 skip on the key flag V[x] names, and fault on a value above 15 (R90-R92). -/
def Obligations.KeySkipsReadTheKeyFlag : Prop :=
  ∀ (x : Reg) (s : State),
    decodeWord (formatXK 0xE x 0x9E) = .skp x ∧ decodeWord (formatXK 0xE x 0xA1) = .sknp x ∧
    (∀ k : Key, (s.getV x).toNat = k.val →
      (∃ t, exec (.skp x) s = .next t ∧ onlyPc s t ∧
        t.pc.toNat = if s.keys[k] = true then (s.pc.toNat + 2) % 65536 else s.pc.toNat) ∧
      (∃ t, exec (.sknp x) s = .next t ∧ onlyPc s t ∧
        t.pc.toNat = if s.keys[k] = true then s.pc.toNat else (s.pc.toNat + 2) % 65536)) ∧
    (0x0F < (s.getV x).toNat →
      exec (.skp x) s =
        .next (afterFault (formatXK 0xE x 0x9E) (.invalidRegisterOrKeyIndex (s.getV x).toNat) s) ∧
      exec (.sknp x) s =
        .next (afterFault (formatXK 0xE x 0xA1) (.invalidRegisterOrKeyIndex (s.getV x).toNat) s))

/-- Fx07 reads DT, Fx15 and Fx18 write DT and ST (R93-R95). -/
def Obligations.TimerTransfers : Prop :=
  ∀ (x : Reg) (s : State),
    (decodeWord (formatXK 0xF x 0x07) = .ldVxDt x ∧ decodeWord (formatXK 0xF x 0x15) = .ldDtVx x ∧
      decodeWord (formatXK 0xF x 0x18) = .ldStVx x) ∧
    (∃ t, exec (.ldVxDt x) s = .next t ∧ t.getV x = s.dt ∧ (∀ r, r ≠ x → t.getV r = s.getV r) ∧ onlyV s t) ∧
    (∃ t, exec (.ldDtVx x) s = .next t ∧ t.dt = s.getV x ∧ onlyDt s t) ∧
    (∃ t, exec (.ldStVx x) s = .next t ∧ t.st = s.getV x ∧ onlySt s t)

/-- Fx0A suspends the core, and the wait ends with the key in V[x] once the host delivers a mapped one; an unmapped one
changes nothing, and neither part reads or writes the key flags (R96), for every key table (R7). -/
def Obligations.KeyReadWaitsForAMappedKey : Prop :=
  ∀ (x : Reg) (s : State), decodeWord (formatXK 0xF x 0x0A) = .ldVxK x ∧
    (∃ t, exec (.ldVxK x) s = .next t ∧ t.run = .waitingKey x ∧ onlyRun s t) ∧
    (∀ (h : Config.HostKey) (rest : List HostTransaction), s.run = .waitingKey x → s.inputs = .keyInput h :: rest →
      (∀ k : Key, mapKey s.params.keyTable h = some k →
        ∃ t, step s = .next t ∧ (t.getV x).toNat = k.val ∧ (∀ r, r ≠ x → t.getV r = s.getV r) ∧
          t = { s with inputs := rest, v := t.v, run := .running }) ∧
      (mapKey s.params.keyTable h = none → step s = .next { s with inputs := rest }))

/-- KeyInput completes the wait with the first key the table maps the host key to, and an unmapped host key changes
nothing, for every type of host keys and every table (R121, R122, R7). -/
def Obligations.KeyInputCompletesTheWait : Prop :=
  (∀ (κ : Type) [DecidableEq κ] (table : Vector κ 16) (h : κ) (s : State) (x : Reg), s.run = .waitingKey x →
    (∀ k : Key, table[k] = h → (∀ j : Key, j < k → table[j] ≠ h) →
      mapKey table h = some k ∧
      (keyInput table h s).getV x = BitVec.ofNat 8 k.val ∧ (∀ r, r ≠ x → (keyInput table h s).getV r = s.getV r) ∧
      keyInput table h s = { s with v := (keyInput table h s).v, run := .running }) ∧
    ((∀ k : Key, table[k] ≠ h) → mapKey table h = none ∧ keyInput table h s = s)) ∧
  (∀ (s : State) (h : Config.HostKey) (rest : List HostTransaction) (x : Reg), s.run = .waitingKey x →
    s.inputs = .keyInput h :: rest → step s = .next (keyInput s.params.keyTable h { s with inputs := rest }))

/-- A host with host keys of any type and any key table (R7): a KeyInput of it, as of every other transaction, has in the
schedule of `step` the effect and the result that the transaction has for that type and table, once its keys and its table
are named in HostKey. -/
def Obligations.AnyHostKeyTypeRunsByStep : Prop :=
  ∀ (κ : Type) [DecidableEq κ] (table : Vector κ 16) (tr : Transaction κ) (s : State) (rest : List HostTransaction),
    s.params.keyTable = table.map (keyName table) → s.inputs = tr.map (keyName table) :: rest →
      step s = transact table tr { s with inputs := rest } ∧
        hostResult (tr.map (keyName table)) s = hostResult tr s

/-- Tick takes one from each timer that is not zero (R117). -/
def Obligations.TickDecrementsToZero : Prop :=
  ∀ (s : State) (rest : List HostTransaction), s.inputs = .tick :: rest →
    ∃ t, step s = .next t ∧ t.dt.toNat = s.dt.toNat - 1 ∧ t.st.toNat = s.st.toNat - 1 ∧
      t = { s with inputs := rest, dt := t.dt, st := t.st }

/-- SetDown and SetUp write one key flag, and are refused for a key above 15 with no state change and nothing logged
(R119, R120). -/
def Obligations.KeyFlagsAreSetAndCleared : Prop :=
  ∀ (s : State) (rest : List HostTransaction) (n : Nat) (down : Bool) (tr : HostTransaction),
    tr = (if down then .setDown n else .setUp n) → s.inputs = tr :: rest →
    (∀ k : Key, n = k.val →
      ∃ t, step s = .next t ∧ (∀ j : Key, t.keys[j] = if j = k then down else s.keys[j]) ∧
        t = { s with inputs := rest, keys := t.keys } ∧ hostResult tr s = .done) ∧
    (15 < n → step s = .next { s with inputs := rest } ∧ hostResult tr s = .error .invalidRegisterOrKeyIndex n)

/-! ### Index arithmetic, BCD, block transfer -/

/-- Fx1E adds to I mod 2^16 and writes no flag (R97). -/
def Obligations.AddIWrapsWithoutFlag : Prop :=
  ∀ (x : Reg) (s : State), decodeWord (formatXK 0xF x 0x1E) = .addIVx x ∧
    ∃ t, exec (.addIVx x) s = .next t ∧ t.i.toNat = (s.i.toNat + (s.getV x).toNat) % 65536 ∧ onlyI s t

/-- Fx29 points I at 5 times V[x], unmasked (R98). -/
def Obligations.LdFPointsAtTheGlyph : Prop :=
  ∀ (x : Reg) (s : State), decodeWord (formatXK 0xF x 0x29) = .ldFVx x ∧
    ∃ t, exec (.ldFVx x) s = .next t ∧ t.i.toNat = (s.getV x).toNat * 5 ∧ onlyI s t

/-- Fx33 stores the three decimal digits at I, I + 1, I + 2 and nothing else, or faults at the lowest address out of
bounds (R99). -/
def Obligations.LdBStoresTheDigits : Prop :=
  ∀ (x : Reg) (s : State), decodeWord (formatXK 0xF x 0x33) = .ldBVx x ∧
    (s.memWf → s.effAddr 2 ≤ 0xFFF →
      ∃ t, exec (.ldBVx x) s = .next t ∧ (t.byteAt (s.effAddr 0)).toNat = (s.getV x).toNat / 100 ∧
        (t.byteAt (s.effAddr 1)).toNat = (s.getV x).toNat / 10 % 10 ∧
        (t.byteAt (s.effAddr 2)).toNat = (s.getV x).toNat % 10 ∧ onlyBytes (s.effAddr 0) 3 s t) ∧
    (∀ j ≤ 2, 0xFFF < s.effAddr j → (∀ k < j, s.effAddr k ≤ 0xFFF) →
      exec (.ldBVx x) s = .next (afterFault (formatXK 0xF x 0x33) (.memoryOutOfBounds (s.effAddr j)) s))

/-- Fx55 stores V0..Vx from I on and nothing else, and leaves I, or faults at the lowest address out of bounds (R100). -/
def Obligations.LdMemStoresTheRegisters : Prop :=
  ∀ (x : Reg) (s : State), decodeWord (formatXK 0xF x 0x55) = .ldMemVx x ∧
    (s.memWf → s.effAddr x.val ≤ 0xFFF →
      ∃ t, exec (.ldMemVx x) s = .next t ∧ (∀ j : Reg, j ≤ x → t.byteAt (s.effAddr j.val) = s.getV j) ∧
        onlyBytes (s.effAddr 0) (x.val + 1) s t) ∧
    (∀ j ≤ x.val, 0xFFF < s.effAddr j → (∀ k < j, s.effAddr k ≤ 0xFFF) →
      exec (.ldMemVx x) s = .next (afterFault (formatXK 0xF x 0x55) (.memoryOutOfBounds (s.effAddr j)) s))

/-- Fx65 loads V0..Vx from I on, and leaves I and the registers above Vx, or faults at the lowest address out of bounds
(R101). -/
def Obligations.LdVxMemLoadsTheRegisters : Prop :=
  ∀ (x : Reg) (s : State), decodeWord (formatXK 0xF x 0x65) = .ldVxMem x ∧
    (s.effAddr x.val ≤ 0xFFF →
      ∃ t, exec (.ldVxMem x) s = .next t ∧
        (∀ r : Reg, t.getV r = if r ≤ x then s.byteAt (s.effAddr r.val) else s.getV r) ∧ onlyV s t) ∧
    (∀ j ≤ x.val, 0xFFF < s.effAddr j → (∀ k < j, s.effAddr k ≤ 0xFFF) →
      exec (.ldVxMem x) s = .next (afterFault (formatXK 0xF x 0x65) (.memoryOutOfBounds (s.effAddr j)) s))

/-- Dxyn, Fx33, Fx55 and Fx65 are all or nothing: an out-of-bounds access faults at the lowest such address and changes
nothing else, and with none the instruction completes (R38). -/
def Obligations.OutOfBoundsFaultsAtTheLowestAddress : Prop :=
  ∀ (i : Instr) (count : Nat) (s : State), accessCount i = some count →
    (∀ j < count, 0xFFF < s.effAddr j → (∀ k < j, s.effAddr k ≤ 0xFFF) →
      exec i s = .next (afterFault (encode i) (.memoryOutOfBounds (s.effAddr j)) s)) ∧
    ((∀ j < count, s.effAddr j ≤ 0xFFF) → ∃ t, exec i s = .next t ∧ t.run = s.run ∧ t.log = s.log)

/-- Registers stored by Fx55 come back by Fx65 of the same x, whatever the registers held in between, from a memory
that reads as it did (R100, R101). -/
def Obligations.StoreThenLoadRestoresTheRegisters : Prop :=
  ∀ (x : Reg) (s t m : State), s.memWf → s.effAddr x.val ≤ 0xFFF → exec (.ldMemVx x) s = .next t →
    (∀ a, m.byteAt a = t.byteAt a) → m.i = t.i →
    ∃ u, exec (.ldVxMem x) m = .next u ∧ (∀ r : Reg, r ≤ x → u.getV r = s.getV r) ∧
      ∀ r : Reg, x < r → u.getV r = m.getV r

/-! ### Unmapped words -/

/-- An UNMAPPED word is a no-op that reports the warning of R105: the record's kind, code 5, opcode, addr P and info. -/
def Obligations.UnmappedWordOnlyWarns : Prop :=
  ∀ (i : Instr) (s : State), ((∃ nnn, i = .sys nnn) ∨ (∃ w, i = .unmapped w)) →
    ∃ t r, exec i s = .next t ∧ t.log = s.log ++ [r] ∧ r.kind = .unmappedOpcode ∧ r.code = 5 ∧
      r.opcode = some (encode i) ∧ r.addr = s.pc - 2 ∧ r.info = some (encode i).toNat ∧ onlyLog s t

/-! ### Skip, Load, Reset, Read -/

/-- Skip moves past the faulting opcode and lets the core run; the log keeps the record (R107). -/
def Obligations.SkipPassesTheFaultingOpcode : Prop :=
  ∀ (s : State) (rest : List HostTransaction) (record : FaultRecord), s.run = .faulted record →
    s.inputs = .skip :: rest →
    ∃ t, step s = .next t ∧ t.pc.toNat = (s.pc.toNat + 2) % 65536 ∧ t.run = .running ∧
      t = { s with inputs := rest, pc := t.pc, run := t.run }

/-- Load copies the program to 0x200 and sets PC there, in every run state, and changes nothing else; an image with
len + 0x200 ≥ 4096 is refused with no state change (R129). -/
def Obligations.LoadCopiesTheProgram : Prop :=
  ∀ (s : State) (rest : List HostTransaction) (bytes : List Byte), s.inputs = .load bytes :: rest →
    (4096 ≤ bytes.length + 0x200 → step s = .next { s with inputs := rest } ∧
      hostResult (.load bytes : HostTransaction) s = .error .loadTooLarge bytes.length) ∧
    (bytes.length + 0x200 < 4096 → s.memWf →
      ∃ t, step s = .next t ∧ (∀ j : Fin bytes.length, t.byteAt (0x200 + j.val) = bytes[j]) ∧ t.pc = 0x200 ∧
        (∀ a, (a < 0x200 ∨ 0x200 + bytes.length ≤ a) → t.byteAt a = s.byteAt a) ∧
        t = { s with inputs := rest, mem := t.mem, pc := t.pc } ∧ hostResult (.load bytes : HostTransaction) s = .done)

/-- Reset re-initialises every component in every run state and keeps the report log (R128, R26), and the parameters,
whatever they are (R6, R7, R40). The model's own fields stay (the model's choice, notes/assumptions/3.md). -/
def Obligations.ResetReinitialisesAndKeepsTheLog : Prop :=
  ∀ (s : State) (rest : List HostTransaction), s.inputs = .reset :: rest →
    step s = .next { State.resetWith s.params with log := s.log, inputs := rest, rnd := s.rnd, draws := s.draws }

/-- Read returns the component the host names, whichever it is, and changes nothing (R116). -/
def Obligations.ReadReturnsTheComponent : Prop :=
  (∀ (s : State) (rest : List HostTransaction) (c : Component), s.inputs = .read c :: rest →
    step s = .next { s with inputs := rest } ∧ hostResult (.read c : HostTransaction) s = .value (readComponent c s)) ∧
  ∀ s : State,
    (∀ a, readComponent (.mem a) s = .byte (s.byteAt a.val)) ∧ (∀ x, readComponent (.v x) s = .byte (s.getV x)) ∧
    readComponent .i s = .word s.i ∧ readComponent .pc s = .word s.pc ∧ readComponent .sp s = .count s.sp ∧
    (∀ e, readComponent (.stack e) s = .entry s.stack[e]?) ∧
    readComponent .dt s = .byte s.dt ∧ readComponent .st s = .byte s.st ∧
    (∀ k, readComponent (.key k) s = .flag s.keys[k]) ∧
    (∀ px py, readComponent (.pixel px py) s = .flag (s.disp.pixel px py)) ∧
    readComponent .run s = .run s.run ∧ readComponent .log s = .log s.log
end

