-- ==== Sys2Proof/Laws/Decode.lean ====
section
/-! SUPPORT. The fields (R47) of a word laid out in one of the formats of R49, and a word put together from its fields. -/

namespace Sys2Proof

open BitVec

variable (w : Word) (op s : BitVec 4) (x y : Reg) (kk : Byte) (nnn : BitVec 12)

@[simp] theorem toFin_nibble : (nibble x).toFin = x := rfl

@[simp] theorem nibble_toFin : nibble s.toFin = s := rfl

/-! ### Format A -/

@[simp] theorem fieldOp_formatA : fieldOp (formatA op nnn) = op.toFin :=
  congrArg BitVec.toFin (extractLsb'_append_eq_left (a := op) (b := nnn))

@[simp] theorem fieldNNN_formatA : fieldNNN (formatA op nnn) = nnn :=
  extractLsb'_append_eq_right (a := op) (b := nnn)

/-! ### Format XK -/

@[simp] theorem fieldOp_formatXK : fieldOp (formatXK op x kk) = op.toFin :=
  congrArg BitVec.toFin <|
    (extractLsb'_append_eq_of_le (xhi := op ++ nibble x) (xlo := kk) (start := 12) (len := 4) (by decide)).trans
      (extractLsb'_append_eq_left (a := op) (b := nibble x))

@[simp] theorem fieldX_formatXK : fieldX (formatXK op x kk) = x :=
  congrArg BitVec.toFin <|
    (extractLsb'_append_eq_of_le (xhi := op ++ nibble x) (xlo := kk) (start := 8) (len := 4) (by decide)).trans
      (extractLsb'_append_eq_right (a := op) (b := nibble x))

@[simp] theorem fieldKK_formatXK : fieldKK (formatXK op x kk) = kk :=
  extractLsb'_append_eq_right (a := op ++ nibble x) (b := kk)

/-! ### Formats XY and XYN -/

@[simp] theorem fieldOp_formatXY : fieldOp (formatXY op x y s) = op.toFin :=
  congrArg BitVec.toFin <|
    (extractLsb'_append_eq_of_le (xhi := op ++ nibble x ++ nibble y) (xlo := s) (start := 12) (len := 4)
      (by decide)).trans <|
    (extractLsb'_append_eq_of_le (xhi := op ++ nibble x) (xlo := nibble y) (start := 8) (len := 4) (by decide)).trans
      (extractLsb'_append_eq_left (a := op) (b := nibble x))

@[simp] theorem fieldX_formatXY : fieldX (formatXY op x y s) = x :=
  congrArg BitVec.toFin <|
    (extractLsb'_append_eq_of_le (xhi := op ++ nibble x ++ nibble y) (xlo := s) (start := 8) (len := 4)
      (by decide)).trans <|
    (extractLsb'_append_eq_of_le (xhi := op ++ nibble x) (xlo := nibble y) (start := 4) (len := 4) (by decide)).trans
      (extractLsb'_append_eq_right (a := op) (b := nibble x))

@[simp] theorem fieldY_formatXY : fieldY (formatXY op x y s) = y :=
  congrArg BitVec.toFin <|
    (extractLsb'_append_eq_of_le (xhi := op ++ nibble x ++ nibble y) (xlo := s) (start := 4) (len := 4)
      (by decide)).trans
      (extractLsb'_append_eq_right (a := op ++ nibble x) (b := nibble y))

@[simp] theorem fieldN_formatXY : fieldN (formatXY op x y s) = s.toFin :=
  congrArg BitVec.toFin (extractLsb'_append_eq_right (a := op ++ nibble x ++ nibble y) (b := s))

/-! ### A word from its fields -/

theorem formatA_fields : formatA (nibble (fieldOp w)) (fieldNNN w) = w :=
  (extractLsb'_append_extractLsb'_eq_extractLsb' (x := w) (start₂ := 12) (start₁ := 0) (len₂ := 4) (len₁ := 12)
    rfl).trans extractLsb'_eq_self

theorem formatXK_fields : formatXK (nibble (fieldOp w)) (fieldX w) (fieldKK w) = w := by
  have h : w.extractLsb' 12 4 ++ w.extractLsb' 8 4 = w.extractLsb' 8 8 :=
    extractLsb'_append_extractLsb'_eq_extractLsb' rfl
  have h2 : w.extractLsb' 8 8 ++ w.extractLsb' 0 8 = w.extractLsb' 0 16 :=
    extractLsb'_append_extractLsb'_eq_extractLsb' rfl
  change (w.extractLsb' 12 4 ++ w.extractLsb' 8 4) ++ w.extractLsb' 0 8 = w
  rw [h, h2, extractLsb'_eq_self]

theorem formatXY_fields : formatXY (nibble (fieldOp w)) (fieldX w) (fieldY w) (nibble (fieldN w)) = w := by
  have h : w.extractLsb' 4 4 ++ w.extractLsb' 0 4 = w.extractLsb' 0 8 :=
    extractLsb'_append_extractLsb'_eq_extractLsb' rfl
  have h1 : w.extractLsb' 12 4 ++ w.extractLsb' 8 4 = w.extractLsb' 8 8 :=
    extractLsb'_append_extractLsb'_eq_extractLsb' rfl
  have h2 : w.extractLsb' 8 8 ++ w.extractLsb' 4 4 = w.extractLsb' 4 12 :=
    extractLsb'_append_extractLsb'_eq_extractLsb' rfl
  have h3 : w.extractLsb' 4 12 ++ w.extractLsb' 0 4 = w.extractLsb' 0 16 :=
    extractLsb'_append_extractLsb'_eq_extractLsb' rfl
  change ((w.extractLsb' 12 4 ++ w.extractLsb' 8 4) ++ w.extractLsb' 4 4) ++ w.extractLsb' 0 4 = w
  rw [h1, h2, h3, extractLsb'_eq_self]

/-- The two bytes of a word put together again (R35). -/
theorem opcodeOfBytes_bytes : opcodeOfBytes (w.extractLsb' 8 8) (w.extractLsb' 0 8) = w :=
  (extractLsb'_append_extractLsb'_eq_extractLsb' (x := w) (start₂ := 8) (start₁ := 0) (len₂ := 8) (len₁ := 8)
    rfl).trans extractLsb'_eq_self

/-- The big-endian word as a number (R35). -/
theorem opcodeOfBytes_toNat (hi lo : Byte) : (opcodeOfBytes hi lo).toNat = 256 * hi.toNat + lo.toNat := by
  have h := BitVec.toNat_append hi lo
  rw [← Nat.shiftLeft_add_eq_or_of_lt lo.isLt, Nat.shiftLeft_eq] at h
  have e : (opcodeOfBytes hi lo).toNat = (hi ++ lo).toNat := rfl
  omega

end Sys2Proof
end

