-- ==== Sys2Proof/Laws/State.lean ====
section
/-! SUPPORT. One lemma per field per update of the state, true by rfl, so that no later proof unfolds a record update;
and the reads of a register or a pixel after a write. -/

namespace Sys2Proof.Machine

variable (s : State)

/-! ### setV -/

@[simp] theorem setV_mem (x : Reg) (b : Byte) : (s.setV x b).mem = s.mem := rfl
@[simp] theorem setV_v (x : Reg) (b : Byte) : (s.setV x b).v = s.v.set x b := rfl
@[simp] theorem setV_i (x : Reg) (b : Byte) : (s.setV x b).i = s.i := rfl
@[simp] theorem setV_pc (x : Reg) (b : Byte) : (s.setV x b).pc = s.pc := rfl
@[simp] theorem setV_sp (x : Reg) (b : Byte) : (s.setV x b).sp = s.sp := rfl
@[simp] theorem setV_stack (x : Reg) (b : Byte) : (s.setV x b).stack = s.stack := rfl
@[simp] theorem setV_dt (x : Reg) (b : Byte) : (s.setV x b).dt = s.dt := rfl
@[simp] theorem setV_st (x : Reg) (b : Byte) : (s.setV x b).st = s.st := rfl
@[simp] theorem setV_keys (x : Reg) (b : Byte) : (s.setV x b).keys = s.keys := rfl
@[simp] theorem setV_disp (x : Reg) (b : Byte) : (s.setV x b).disp = s.disp := rfl
@[simp] theorem setV_run (x : Reg) (b : Byte) : (s.setV x b).run = s.run := rfl
@[simp] theorem setV_log (x : Reg) (b : Byte) : (s.setV x b).log = s.log := rfl
@[simp] theorem setV_inputs (x : Reg) (b : Byte) : (s.setV x b).inputs = s.inputs := rfl
@[simp] theorem setV_rnd (x : Reg) (b : Byte) : (s.setV x b).rnd = s.rnd := rfl
@[simp] theorem setV_draws (x : Reg) (b : Byte) : (s.setV x b).draws = s.draws := rfl
@[simp] theorem setV_params (x : Reg) (b : Byte) : (s.setV x b).params = s.params := rfl

/-! ### setI -/

@[simp] theorem setI_mem (w : Word) : (s.setI w).mem = s.mem := rfl
@[simp] theorem setI_v (w : Word) : (s.setI w).v = s.v := rfl
@[simp] theorem setI_i (w : Word) : (s.setI w).i = w := rfl
@[simp] theorem setI_pc (w : Word) : (s.setI w).pc = s.pc := rfl
@[simp] theorem setI_sp (w : Word) : (s.setI w).sp = s.sp := rfl
@[simp] theorem setI_stack (w : Word) : (s.setI w).stack = s.stack := rfl
@[simp] theorem setI_dt (w : Word) : (s.setI w).dt = s.dt := rfl
@[simp] theorem setI_st (w : Word) : (s.setI w).st = s.st := rfl
@[simp] theorem setI_keys (w : Word) : (s.setI w).keys = s.keys := rfl
@[simp] theorem setI_disp (w : Word) : (s.setI w).disp = s.disp := rfl
@[simp] theorem setI_run (w : Word) : (s.setI w).run = s.run := rfl
@[simp] theorem setI_log (w : Word) : (s.setI w).log = s.log := rfl
@[simp] theorem setI_inputs (w : Word) : (s.setI w).inputs = s.inputs := rfl
@[simp] theorem setI_rnd (w : Word) : (s.setI w).rnd = s.rnd := rfl
@[simp] theorem setI_draws (w : Word) : (s.setI w).draws = s.draws := rfl
@[simp] theorem setI_params (w : Word) : (s.setI w).params = s.params := rfl

/-! ### setPc -/

@[simp] theorem setPc_mem (w : Word) : (s.setPc w).mem = s.mem := rfl
@[simp] theorem setPc_v (w : Word) : (s.setPc w).v = s.v := rfl
@[simp] theorem setPc_i (w : Word) : (s.setPc w).i = s.i := rfl
@[simp] theorem setPc_pc (w : Word) : (s.setPc w).pc = w := rfl
@[simp] theorem setPc_sp (w : Word) : (s.setPc w).sp = s.sp := rfl
@[simp] theorem setPc_stack (w : Word) : (s.setPc w).stack = s.stack := rfl
@[simp] theorem setPc_dt (w : Word) : (s.setPc w).dt = s.dt := rfl
@[simp] theorem setPc_st (w : Word) : (s.setPc w).st = s.st := rfl
@[simp] theorem setPc_keys (w : Word) : (s.setPc w).keys = s.keys := rfl
@[simp] theorem setPc_disp (w : Word) : (s.setPc w).disp = s.disp := rfl
@[simp] theorem setPc_run (w : Word) : (s.setPc w).run = s.run := rfl
@[simp] theorem setPc_log (w : Word) : (s.setPc w).log = s.log := rfl
@[simp] theorem setPc_inputs (w : Word) : (s.setPc w).inputs = s.inputs := rfl
@[simp] theorem setPc_rnd (w : Word) : (s.setPc w).rnd = s.rnd := rfl
@[simp] theorem setPc_draws (w : Word) : (s.setPc w).draws = s.draws := rfl
@[simp] theorem setPc_params (w : Word) : (s.setPc w).params = s.params := rfl

/-! ### setDt -/

@[simp] theorem setDt_mem (b : Byte) : (s.setDt b).mem = s.mem := rfl
@[simp] theorem setDt_v (b : Byte) : (s.setDt b).v = s.v := rfl
@[simp] theorem setDt_i (b : Byte) : (s.setDt b).i = s.i := rfl
@[simp] theorem setDt_pc (b : Byte) : (s.setDt b).pc = s.pc := rfl
@[simp] theorem setDt_sp (b : Byte) : (s.setDt b).sp = s.sp := rfl
@[simp] theorem setDt_stack (b : Byte) : (s.setDt b).stack = s.stack := rfl
@[simp] theorem setDt_dt (b : Byte) : (s.setDt b).dt = b := rfl
@[simp] theorem setDt_st (b : Byte) : (s.setDt b).st = s.st := rfl
@[simp] theorem setDt_keys (b : Byte) : (s.setDt b).keys = s.keys := rfl
@[simp] theorem setDt_disp (b : Byte) : (s.setDt b).disp = s.disp := rfl
@[simp] theorem setDt_run (b : Byte) : (s.setDt b).run = s.run := rfl
@[simp] theorem setDt_log (b : Byte) : (s.setDt b).log = s.log := rfl
@[simp] theorem setDt_inputs (b : Byte) : (s.setDt b).inputs = s.inputs := rfl
@[simp] theorem setDt_rnd (b : Byte) : (s.setDt b).rnd = s.rnd := rfl
@[simp] theorem setDt_draws (b : Byte) : (s.setDt b).draws = s.draws := rfl
@[simp] theorem setDt_params (b : Byte) : (s.setDt b).params = s.params := rfl

/-! ### setSt -/

@[simp] theorem setSt_mem (b : Byte) : (s.setSt b).mem = s.mem := rfl
@[simp] theorem setSt_v (b : Byte) : (s.setSt b).v = s.v := rfl
@[simp] theorem setSt_i (b : Byte) : (s.setSt b).i = s.i := rfl
@[simp] theorem setSt_pc (b : Byte) : (s.setSt b).pc = s.pc := rfl
@[simp] theorem setSt_sp (b : Byte) : (s.setSt b).sp = s.sp := rfl
@[simp] theorem setSt_stack (b : Byte) : (s.setSt b).stack = s.stack := rfl
@[simp] theorem setSt_dt (b : Byte) : (s.setSt b).dt = s.dt := rfl
@[simp] theorem setSt_st (b : Byte) : (s.setSt b).st = b := rfl
@[simp] theorem setSt_keys (b : Byte) : (s.setSt b).keys = s.keys := rfl
@[simp] theorem setSt_disp (b : Byte) : (s.setSt b).disp = s.disp := rfl
@[simp] theorem setSt_run (b : Byte) : (s.setSt b).run = s.run := rfl
@[simp] theorem setSt_log (b : Byte) : (s.setSt b).log = s.log := rfl
@[simp] theorem setSt_inputs (b : Byte) : (s.setSt b).inputs = s.inputs := rfl
@[simp] theorem setSt_rnd (b : Byte) : (s.setSt b).rnd = s.rnd := rfl
@[simp] theorem setSt_draws (b : Byte) : (s.setSt b).draws = s.draws := rfl
@[simp] theorem setSt_params (b : Byte) : (s.setSt b).params = s.params := rfl

/-! ### setRun -/

@[simp] theorem setRun_mem (r : RunState) : (s.setRun r).mem = s.mem := rfl
@[simp] theorem setRun_v (r : RunState) : (s.setRun r).v = s.v := rfl
@[simp] theorem setRun_i (r : RunState) : (s.setRun r).i = s.i := rfl
@[simp] theorem setRun_pc (r : RunState) : (s.setRun r).pc = s.pc := rfl
@[simp] theorem setRun_sp (r : RunState) : (s.setRun r).sp = s.sp := rfl
@[simp] theorem setRun_stack (r : RunState) : (s.setRun r).stack = s.stack := rfl
@[simp] theorem setRun_dt (r : RunState) : (s.setRun r).dt = s.dt := rfl
@[simp] theorem setRun_st (r : RunState) : (s.setRun r).st = s.st := rfl
@[simp] theorem setRun_keys (r : RunState) : (s.setRun r).keys = s.keys := rfl
@[simp] theorem setRun_disp (r : RunState) : (s.setRun r).disp = s.disp := rfl
@[simp] theorem setRun_run (r : RunState) : (s.setRun r).run = r := rfl
@[simp] theorem setRun_log (r : RunState) : (s.setRun r).log = s.log := rfl
@[simp] theorem setRun_inputs (r : RunState) : (s.setRun r).inputs = s.inputs := rfl
@[simp] theorem setRun_rnd (r : RunState) : (s.setRun r).rnd = s.rnd := rfl
@[simp] theorem setRun_draws (r : RunState) : (s.setRun r).draws = s.draws := rfl
@[simp] theorem setRun_params (r : RunState) : (s.setRun r).params = s.params := rfl

/-! ### setMem -/

@[simp] theorem setMem_mem (m : List Host.Cell) : (s.setMem m).mem = m := rfl
@[simp] theorem setMem_v (m : List Host.Cell) : (s.setMem m).v = s.v := rfl
@[simp] theorem setMem_i (m : List Host.Cell) : (s.setMem m).i = s.i := rfl
@[simp] theorem setMem_pc (m : List Host.Cell) : (s.setMem m).pc = s.pc := rfl
@[simp] theorem setMem_sp (m : List Host.Cell) : (s.setMem m).sp = s.sp := rfl
@[simp] theorem setMem_stack (m : List Host.Cell) : (s.setMem m).stack = s.stack := rfl
@[simp] theorem setMem_dt (m : List Host.Cell) : (s.setMem m).dt = s.dt := rfl
@[simp] theorem setMem_st (m : List Host.Cell) : (s.setMem m).st = s.st := rfl
@[simp] theorem setMem_keys (m : List Host.Cell) : (s.setMem m).keys = s.keys := rfl
@[simp] theorem setMem_disp (m : List Host.Cell) : (s.setMem m).disp = s.disp := rfl
@[simp] theorem setMem_run (m : List Host.Cell) : (s.setMem m).run = s.run := rfl
@[simp] theorem setMem_log (m : List Host.Cell) : (s.setMem m).log = s.log := rfl
@[simp] theorem setMem_inputs (m : List Host.Cell) : (s.setMem m).inputs = s.inputs := rfl
@[simp] theorem setMem_rnd (m : List Host.Cell) : (s.setMem m).rnd = s.rnd := rfl
@[simp] theorem setMem_draws (m : List Host.Cell) : (s.setMem m).draws = s.draws := rfl
@[simp] theorem setMem_params (m : List Host.Cell) : (s.setMem m).params = s.params := rfl

/-! ### store -/

@[simp] theorem store_mem (base : Nat) (bytes : List Byte) : (s.store base bytes).mem =
    Memory.writeAll s.params.font base bytes s.mem := rfl
@[simp] theorem store_v (base : Nat) (bytes : List Byte) : (s.store base bytes).v = s.v := rfl
@[simp] theorem store_i (base : Nat) (bytes : List Byte) : (s.store base bytes).i = s.i := rfl
@[simp] theorem store_pc (base : Nat) (bytes : List Byte) : (s.store base bytes).pc = s.pc := rfl
@[simp] theorem store_sp (base : Nat) (bytes : List Byte) : (s.store base bytes).sp = s.sp := rfl
@[simp] theorem store_stack (base : Nat) (bytes : List Byte) : (s.store base bytes).stack = s.stack := rfl
@[simp] theorem store_dt (base : Nat) (bytes : List Byte) : (s.store base bytes).dt = s.dt := rfl
@[simp] theorem store_st (base : Nat) (bytes : List Byte) : (s.store base bytes).st = s.st := rfl
@[simp] theorem store_keys (base : Nat) (bytes : List Byte) : (s.store base bytes).keys = s.keys := rfl
@[simp] theorem store_disp (base : Nat) (bytes : List Byte) : (s.store base bytes).disp = s.disp := rfl
@[simp] theorem store_run (base : Nat) (bytes : List Byte) : (s.store base bytes).run = s.run := rfl
@[simp] theorem store_log (base : Nat) (bytes : List Byte) : (s.store base bytes).log = s.log := rfl
@[simp] theorem store_inputs (base : Nat) (bytes : List Byte) : (s.store base bytes).inputs = s.inputs := rfl
@[simp] theorem store_rnd (base : Nat) (bytes : List Byte) : (s.store base bytes).rnd = s.rnd := rfl
@[simp] theorem store_draws (base : Nat) (bytes : List Byte) : (s.store base bytes).draws = s.draws := rfl
@[simp] theorem store_params (base : Nat) (bytes : List Byte) : (s.store base bytes).params = s.params := rfl

/-! ### setDisp -/

@[simp] theorem setDisp_mem (d : Display) : (s.setDisp d).mem = s.mem := rfl
@[simp] theorem setDisp_v (d : Display) : (s.setDisp d).v = s.v := rfl
@[simp] theorem setDisp_i (d : Display) : (s.setDisp d).i = s.i := rfl
@[simp] theorem setDisp_pc (d : Display) : (s.setDisp d).pc = s.pc := rfl
@[simp] theorem setDisp_sp (d : Display) : (s.setDisp d).sp = s.sp := rfl
@[simp] theorem setDisp_stack (d : Display) : (s.setDisp d).stack = s.stack := rfl
@[simp] theorem setDisp_dt (d : Display) : (s.setDisp d).dt = s.dt := rfl
@[simp] theorem setDisp_st (d : Display) : (s.setDisp d).st = s.st := rfl
@[simp] theorem setDisp_keys (d : Display) : (s.setDisp d).keys = s.keys := rfl
@[simp] theorem setDisp_disp (d : Display) : (s.setDisp d).disp = d := rfl
@[simp] theorem setDisp_run (d : Display) : (s.setDisp d).run = s.run := rfl
@[simp] theorem setDisp_log (d : Display) : (s.setDisp d).log = s.log := rfl
@[simp] theorem setDisp_inputs (d : Display) : (s.setDisp d).inputs = s.inputs := rfl
@[simp] theorem setDisp_rnd (d : Display) : (s.setDisp d).rnd = s.rnd := rfl
@[simp] theorem setDisp_draws (d : Display) : (s.setDisp d).draws = s.draws := rfl
@[simp] theorem setDisp_params (d : Display) : (s.setDisp d).params = s.params := rfl

/-! ### setKey -/

@[simp] theorem setKey_mem (k : Key) (down : Bool) : (s.setKey k down).mem = s.mem := rfl
@[simp] theorem setKey_v (k : Key) (down : Bool) : (s.setKey k down).v = s.v := rfl
@[simp] theorem setKey_i (k : Key) (down : Bool) : (s.setKey k down).i = s.i := rfl
@[simp] theorem setKey_pc (k : Key) (down : Bool) : (s.setKey k down).pc = s.pc := rfl
@[simp] theorem setKey_sp (k : Key) (down : Bool) : (s.setKey k down).sp = s.sp := rfl
@[simp] theorem setKey_stack (k : Key) (down : Bool) : (s.setKey k down).stack = s.stack := rfl
@[simp] theorem setKey_dt (k : Key) (down : Bool) : (s.setKey k down).dt = s.dt := rfl
@[simp] theorem setKey_st (k : Key) (down : Bool) : (s.setKey k down).st = s.st := rfl
@[simp] theorem setKey_keys (k : Key) (down : Bool) : (s.setKey k down).keys = s.keys.set k down := rfl
@[simp] theorem setKey_disp (k : Key) (down : Bool) : (s.setKey k down).disp = s.disp := rfl
@[simp] theorem setKey_run (k : Key) (down : Bool) : (s.setKey k down).run = s.run := rfl
@[simp] theorem setKey_log (k : Key) (down : Bool) : (s.setKey k down).log = s.log := rfl
@[simp] theorem setKey_inputs (k : Key) (down : Bool) : (s.setKey k down).inputs = s.inputs := rfl
@[simp] theorem setKey_rnd (k : Key) (down : Bool) : (s.setKey k down).rnd = s.rnd := rfl
@[simp] theorem setKey_draws (k : Key) (down : Bool) : (s.setKey k down).draws = s.draws := rfl
@[simp] theorem setKey_params (k : Key) (down : Bool) : (s.setKey k down).params = s.params := rfl

/-! ### report -/

@[simp] theorem report_mem (r : Report) : (s.report r).mem = s.mem := rfl
@[simp] theorem report_v (r : Report) : (s.report r).v = s.v := rfl
@[simp] theorem report_i (r : Report) : (s.report r).i = s.i := rfl
@[simp] theorem report_pc (r : Report) : (s.report r).pc = s.pc := rfl
@[simp] theorem report_sp (r : Report) : (s.report r).sp = s.sp := rfl
@[simp] theorem report_stack (r : Report) : (s.report r).stack = s.stack := rfl
@[simp] theorem report_dt (r : Report) : (s.report r).dt = s.dt := rfl
@[simp] theorem report_st (r : Report) : (s.report r).st = s.st := rfl
@[simp] theorem report_keys (r : Report) : (s.report r).keys = s.keys := rfl
@[simp] theorem report_disp (r : Report) : (s.report r).disp = s.disp := rfl
@[simp] theorem report_run (r : Report) : (s.report r).run = s.run := rfl
@[simp] theorem report_log (r : Report) : (s.report r).log = s.log ++ [r] := rfl
@[simp] theorem report_inputs (r : Report) : (s.report r).inputs = s.inputs := rfl
@[simp] theorem report_rnd (r : Report) : (s.report r).rnd = s.rnd := rfl
@[simp] theorem report_draws (r : Report) : (s.report r).draws = s.draws := rfl
@[simp] theorem report_params (r : Report) : (s.report r).params = s.params := rfl

/-! ### advance -/

@[simp] theorem advance_mem : (s.advance).mem = s.mem := rfl
@[simp] theorem advance_v : (s.advance).v = s.v := rfl
@[simp] theorem advance_i : (s.advance).i = s.i := rfl
@[simp] theorem advance_pc : (s.advance).pc = s.pc + 2 := rfl
@[simp] theorem advance_sp : (s.advance).sp = s.sp := rfl
@[simp] theorem advance_stack : (s.advance).stack = s.stack := rfl
@[simp] theorem advance_dt : (s.advance).dt = s.dt := rfl
@[simp] theorem advance_st : (s.advance).st = s.st := rfl
@[simp] theorem advance_keys : (s.advance).keys = s.keys := rfl
@[simp] theorem advance_disp : (s.advance).disp = s.disp := rfl
@[simp] theorem advance_run : (s.advance).run = s.run := rfl
@[simp] theorem advance_log : (s.advance).log = s.log := rfl
@[simp] theorem advance_inputs : (s.advance).inputs = s.inputs := rfl
@[simp] theorem advance_rnd : (s.advance).rnd = s.rnd := rfl
@[simp] theorem advance_draws : (s.advance).draws = s.draws := rfl
@[simp] theorem advance_params : (s.advance).params = s.params := rfl

/-! ### undoAdvance -/

@[simp] theorem undoAdvance_mem : (s.undoAdvance).mem = s.mem := rfl
@[simp] theorem undoAdvance_v : (s.undoAdvance).v = s.v := rfl
@[simp] theorem undoAdvance_i : (s.undoAdvance).i = s.i := rfl
@[simp] theorem undoAdvance_pc : (s.undoAdvance).pc = s.pc - 2 := rfl
@[simp] theorem undoAdvance_sp : (s.undoAdvance).sp = s.sp := rfl
@[simp] theorem undoAdvance_stack : (s.undoAdvance).stack = s.stack := rfl
@[simp] theorem undoAdvance_dt : (s.undoAdvance).dt = s.dt := rfl
@[simp] theorem undoAdvance_st : (s.undoAdvance).st = s.st := rfl
@[simp] theorem undoAdvance_keys : (s.undoAdvance).keys = s.keys := rfl
@[simp] theorem undoAdvance_disp : (s.undoAdvance).disp = s.disp := rfl
@[simp] theorem undoAdvance_run : (s.undoAdvance).run = s.run := rfl
@[simp] theorem undoAdvance_log : (s.undoAdvance).log = s.log := rfl
@[simp] theorem undoAdvance_inputs : (s.undoAdvance).inputs = s.inputs := rfl
@[simp] theorem undoAdvance_rnd : (s.undoAdvance).rnd = s.rnd := rfl
@[simp] theorem undoAdvance_draws : (s.undoAdvance).draws = s.draws := rfl
@[simp] theorem undoAdvance_params : (s.undoAdvance).params = s.params := rfl

/-! ### setVs -/

@[simp] theorem setVs_mem (bytes : List Byte) : (s.setVs bytes).mem = s.mem := rfl
@[simp] theorem setVs_i (bytes : List Byte) : (s.setVs bytes).i = s.i := rfl
@[simp] theorem setVs_pc (bytes : List Byte) : (s.setVs bytes).pc = s.pc := rfl
@[simp] theorem setVs_sp (bytes : List Byte) : (s.setVs bytes).sp = s.sp := rfl
@[simp] theorem setVs_stack (bytes : List Byte) : (s.setVs bytes).stack = s.stack := rfl
@[simp] theorem setVs_dt (bytes : List Byte) : (s.setVs bytes).dt = s.dt := rfl
@[simp] theorem setVs_st (bytes : List Byte) : (s.setVs bytes).st = s.st := rfl
@[simp] theorem setVs_keys (bytes : List Byte) : (s.setVs bytes).keys = s.keys := rfl
@[simp] theorem setVs_disp (bytes : List Byte) : (s.setVs bytes).disp = s.disp := rfl
@[simp] theorem setVs_run (bytes : List Byte) : (s.setVs bytes).run = s.run := rfl
@[simp] theorem setVs_log (bytes : List Byte) : (s.setVs bytes).log = s.log := rfl
@[simp] theorem setVs_inputs (bytes : List Byte) : (s.setVs bytes).inputs = s.inputs := rfl
@[simp] theorem setVs_rnd (bytes : List Byte) : (s.setVs bytes).rnd = s.rnd := rfl
@[simp] theorem setVs_draws (bytes : List Byte) : (s.setVs bytes).draws = s.draws := rfl
@[simp] theorem setVs_params (bytes : List Byte) : (s.setVs bytes).params = s.params := rfl

/-! ### setFlag and setResultAndFlag -/

@[simp] theorem setFlag_mem (c : Bool) : (s.setFlag c).mem = s.mem := rfl
@[simp] theorem setFlag_i (c : Bool) : (s.setFlag c).i = s.i := rfl
@[simp] theorem setFlag_pc (c : Bool) : (s.setFlag c).pc = s.pc := rfl
@[simp] theorem setFlag_sp (c : Bool) : (s.setFlag c).sp = s.sp := rfl
@[simp] theorem setFlag_stack (c : Bool) : (s.setFlag c).stack = s.stack := rfl
@[simp] theorem setFlag_dt (c : Bool) : (s.setFlag c).dt = s.dt := rfl
@[simp] theorem setFlag_st (c : Bool) : (s.setFlag c).st = s.st := rfl
@[simp] theorem setFlag_keys (c : Bool) : (s.setFlag c).keys = s.keys := rfl
@[simp] theorem setFlag_disp (c : Bool) : (s.setFlag c).disp = s.disp := rfl
@[simp] theorem setFlag_run (c : Bool) : (s.setFlag c).run = s.run := rfl
@[simp] theorem setFlag_log (c : Bool) : (s.setFlag c).log = s.log := rfl
@[simp] theorem setFlag_inputs (c : Bool) : (s.setFlag c).inputs = s.inputs := rfl
@[simp] theorem setFlag_rnd (c : Bool) : (s.setFlag c).rnd = s.rnd := rfl
@[simp] theorem setFlag_draws (c : Bool) : (s.setFlag c).draws = s.draws := rfl
@[simp] theorem setFlag_params (c : Bool) : (s.setFlag c).params = s.params := rfl
@[simp] theorem setResultAndFlag_mem (x : Reg) (b : Byte) (c : Bool) :
    (s.setResultAndFlag x b c).mem = s.mem := rfl
@[simp] theorem setResultAndFlag_i (x : Reg) (b : Byte) (c : Bool) :
    (s.setResultAndFlag x b c).i = s.i := rfl
@[simp] theorem setResultAndFlag_pc (x : Reg) (b : Byte) (c : Bool) :
    (s.setResultAndFlag x b c).pc = s.pc := rfl
@[simp] theorem setResultAndFlag_sp (x : Reg) (b : Byte) (c : Bool) :
    (s.setResultAndFlag x b c).sp = s.sp := rfl
@[simp] theorem setResultAndFlag_stack (x : Reg) (b : Byte) (c : Bool) :
    (s.setResultAndFlag x b c).stack = s.stack := rfl
@[simp] theorem setResultAndFlag_dt (x : Reg) (b : Byte) (c : Bool) :
    (s.setResultAndFlag x b c).dt = s.dt := rfl
@[simp] theorem setResultAndFlag_st (x : Reg) (b : Byte) (c : Bool) :
    (s.setResultAndFlag x b c).st = s.st := rfl
@[simp] theorem setResultAndFlag_keys (x : Reg) (b : Byte) (c : Bool) :
    (s.setResultAndFlag x b c).keys = s.keys := rfl
@[simp] theorem setResultAndFlag_disp (x : Reg) (b : Byte) (c : Bool) :
    (s.setResultAndFlag x b c).disp = s.disp := rfl
@[simp] theorem setResultAndFlag_run (x : Reg) (b : Byte) (c : Bool) :
    (s.setResultAndFlag x b c).run = s.run := rfl
@[simp] theorem setResultAndFlag_log (x : Reg) (b : Byte) (c : Bool) :
    (s.setResultAndFlag x b c).log = s.log := rfl
@[simp] theorem setResultAndFlag_inputs (x : Reg) (b : Byte) (c : Bool) :
    (s.setResultAndFlag x b c).inputs = s.inputs := rfl
@[simp] theorem setResultAndFlag_rnd (x : Reg) (b : Byte) (c : Bool) :
    (s.setResultAndFlag x b c).rnd = s.rnd := rfl
@[simp] theorem setResultAndFlag_draws (x : Reg) (b : Byte) (c : Bool) :
    (s.setResultAndFlag x b c).draws = s.draws := rfl
@[simp] theorem setResultAndFlag_params (x : Reg) (b : Byte) (c : Bool) :
    (s.setResultAndFlag x b c).params = s.params := rfl

/-! ### skipIf -/

@[simp] theorem skipIf_mem (c : Bool) : (s.skipIf c).mem = s.mem := by cases c <;> rfl
@[simp] theorem skipIf_v (c : Bool) : (s.skipIf c).v = s.v := by cases c <;> rfl
@[simp] theorem skipIf_i (c : Bool) : (s.skipIf c).i = s.i := by cases c <;> rfl
theorem skipIf_pc (c : Bool) : (s.skipIf c).pc = if c then s.pc + 2 else s.pc := by cases c <;> rfl
@[simp] theorem skipIf_sp (c : Bool) : (s.skipIf c).sp = s.sp := by cases c <;> rfl
@[simp] theorem skipIf_stack (c : Bool) : (s.skipIf c).stack = s.stack := by cases c <;> rfl
@[simp] theorem skipIf_dt (c : Bool) : (s.skipIf c).dt = s.dt := by cases c <;> rfl
@[simp] theorem skipIf_st (c : Bool) : (s.skipIf c).st = s.st := by cases c <;> rfl
@[simp] theorem skipIf_keys (c : Bool) : (s.skipIf c).keys = s.keys := by cases c <;> rfl
@[simp] theorem skipIf_disp (c : Bool) : (s.skipIf c).disp = s.disp := by cases c <;> rfl
@[simp] theorem skipIf_run (c : Bool) : (s.skipIf c).run = s.run := by cases c <;> rfl
@[simp] theorem skipIf_log (c : Bool) : (s.skipIf c).log = s.log := by cases c <;> rfl
@[simp] theorem skipIf_inputs (c : Bool) : (s.skipIf c).inputs = s.inputs := by cases c <;> rfl
@[simp] theorem skipIf_rnd (c : Bool) : (s.skipIf c).rnd = s.rnd := by cases c <;> rfl
@[simp] theorem skipIf_draws (c : Bool) : (s.skipIf c).draws = s.draws := by cases c <;> rfl
@[simp] theorem skipIf_params (c : Bool) : (s.skipIf c).params = s.params := by cases c <;> rfl

/-! ### takeFault -/

@[simp] theorem takeFault_mem (opcode : Option Word) (f : Fault) :
    (takeFault opcode f s).mem = s.mem := rfl
@[simp] theorem takeFault_v (opcode : Option Word) (f : Fault) :
    (takeFault opcode f s).v = s.v := rfl
@[simp] theorem takeFault_i (opcode : Option Word) (f : Fault) :
    (takeFault opcode f s).i = s.i := rfl
@[simp] theorem takeFault_pc (opcode : Option Word) (f : Fault) :
    (takeFault opcode f s).pc = s.pc := rfl
@[simp] theorem takeFault_sp (opcode : Option Word) (f : Fault) :
    (takeFault opcode f s).sp = s.sp := rfl
@[simp] theorem takeFault_stack (opcode : Option Word) (f : Fault) :
    (takeFault opcode f s).stack = s.stack := rfl
@[simp] theorem takeFault_dt (opcode : Option Word) (f : Fault) :
    (takeFault opcode f s).dt = s.dt := rfl
@[simp] theorem takeFault_st (opcode : Option Word) (f : Fault) :
    (takeFault opcode f s).st = s.st := rfl
@[simp] theorem takeFault_keys (opcode : Option Word) (f : Fault) :
    (takeFault opcode f s).keys = s.keys := rfl
@[simp] theorem takeFault_disp (opcode : Option Word) (f : Fault) :
    (takeFault opcode f s).disp = s.disp := rfl
@[simp] theorem takeFault_run (opcode : Option Word) (f : Fault) :
    (takeFault opcode f s).run = .faulted ⟨f, opcode, s.pc⟩ := rfl
@[simp] theorem takeFault_log (opcode : Option Word) (f : Fault) :
    (takeFault opcode f s).log = s.log ++ [.fault ⟨f, opcode, s.pc⟩] := rfl
@[simp] theorem takeFault_inputs (opcode : Option Word) (f : Fault) :
    (takeFault opcode f s).inputs = s.inputs := rfl
@[simp] theorem takeFault_rnd (opcode : Option Word) (f : Fault) :
    (takeFault opcode f s).rnd = s.rnd := rfl
@[simp] theorem takeFault_draws (opcode : Option Word) (f : Fault) :
    (takeFault opcode f s).draws = s.draws := rfl
@[simp] theorem takeFault_params (opcode : Option Word) (f : Fault) :
    (takeFault opcode f s).params = s.params := rfl

/-! ### reportUnmapped and skipFault -/

theorem reportUnmapped_eq (w : Word) : reportUnmapped w s = s.report (.warning w (s.pc - 2)) := rfl

theorem skipFault_eq : skipFault s = s.advance.setRun .running := rfl

/-! ### Reads after writes -/

@[simp] theorem getV_setV_same (x : Reg) (b : Byte) : (s.setV x b).getV x = b := by
  simp [State.getV, State.setV]

theorem getV_setV_ne (x y : Reg) (b : Byte) (h : y ≠ x) : (s.setV x b).getV y = s.getV y := by
  simp only [State.getV, State.setV, Fin.getElem_fin]
  exact Vector.getElem_set_ne _ _ fun e => h (Fin.ext e.symm)

/-- A register reads by the register file alone. -/
theorem getV_congr {s t : State} (h : t.v = s.v) (x : Reg) : t.getV x = s.getV x := by
  simp only [State.getV, h]

/-- A stack entry reads by the storage alone. -/
theorem stackAt_congr {s t : State} (h : t.stack = s.stack) (j : Nat) : t.stackAt j = s.stackAt j := by
  simp only [State.stackAt, h]

/-- A byte reads by memory and the parameters alone. -/
theorem byteAt_congr {s t : State} (hm : t.mem = s.mem) (hp : t.params = s.params) (a : Nat) :
    t.byteAt a = s.byteAt a := by
  simp only [State.byteAt, hm, hp]

/-- VF holds the flag after a flagged instruction, whatever x is (R74). -/
theorem setResultAndFlag_vf (x : Reg) (b : Byte) (c : Bool) : (s.setResultAndFlag x b c).getV vf = flagByte c := by
  simp only [State.setResultAndFlag, State.setFlag, getV_setV_same]

/-- The result stands in V[x] unless x = 0xF (R74). -/
theorem setResultAndFlag_dest (x : Reg) (b : Byte) (c : Bool) (h : x ≠ vf) :
    (s.setResultAndFlag x b c).getV x = b := by
  simp only [State.setResultAndFlag, State.setFlag, getV_setV_ne _ _ _ _ h, getV_setV_same]

theorem setResultAndFlag_other (x r : Reg) (b : Byte) (c : Bool) (hx : r ≠ x) (hf : r ≠ vf) :
    (s.setResultAndFlag x b c).getV r = s.getV r := by
  simp only [State.setResultAndFlag, State.setFlag, getV_setV_ne _ _ _ _ hf, getV_setV_ne _ _ _ _ hx]

/-- Loading registers from a list: those it reaches take its bytes, the others keep their values (R101). -/
theorem getV_setVs (bytes : List Byte) (r : Reg) : (s.setVs bytes).getV r = bytes.getD r.val (s.getV r) := by
  simp [State.getV, State.setVs]

theorem getVs_length (x : Reg) : (s.getVs x).length = x.val + 1 := by
  simp only [State.getVs, List.length_take, Vector.length_toList]
  omega

theorem getVs_getD (x r : Reg) (d : Byte) (h : r ≤ x) : (s.getVs x).getD r.val d = s.getV r := by
  have h1 : r.val < x.val + 1 := Nat.lt_succ_of_le h
  simp [State.getVs, State.getV, List.getD_eq_getElem?_getD, h1]

/-! ### Pixels -/

@[simp] theorem pixel_setPixel_same (d : Display) (px : Col) (py : Row) (b : Bool) :
    (d.setPixel px py b).pixel px py = b := by
  simp [Display.pixel, Display.setPixel]

theorem pixel_setPixel_ne (d : Display) (px qx : Col) (py qy : Row) (b : Bool) (h : qx ≠ px ∨ qy ≠ py) :
    (d.setPixel px py b).pixel qx qy = d.pixel qx qy := by
  have hv : px.val = qx.val → py.val ≠ qy.val := fun e1 e2 => by
    rcases h with h | h
    · exact h (Fin.ext e1.symm)
    · exact h (Fin.ext e2.symm)
  simp only [Display.pixel, Display.setPixel, Fin.getElem_fin]
  by_cases e : px.val = qx.val
  · simp only [Vector.getElem_set, e, if_true, hv e, if_false]
  · simp only [Vector.getElem_set, e, if_false]

@[simp] theorem pixel_clear (px : Col) (py : Row) : Display.clear.pixel px py = false := by
  simp [Display.pixel, Display.clear]

end Sys2Proof.Machine
end

