-- ==== Sys2Proof/Laws/Draw.lean ====
section
/-! SUPPORT. The laws of the sprite compositor (R88): what one sprite bit does, and what a whole sprite does, as a list of
the pixels its bits touch, no pixel twice. -/

namespace Sys2Proof.Machine

/-- A sprite bit changes only its own pixel, by XOR with the bit. -/
theorem drawBit_pixel (px qx : Col) (py qy : Row) (bit : Bool) (acc : Display × Bool) :
    (drawBit px py bit acc).1.pixel qx qy =
      ((qx = px ∧ qy = py ∧ bit = true : Bool) != acc.1.pixel qx qy) := by
  cases bit with
  | false => simp [drawBit]
  | true =>
    by_cases h : qx = px ∧ qy = py
    · obtain ⟨rfl, rfl⟩ := h
      simp [drawBit]
    · have hne : qx ≠ px ∨ qy ≠ py := by
        by_cases hx : qx = px
        · exact .inr fun hy => h ⟨hx, hy⟩
        · exact .inl hx
      have hd : decide (qx = px ∧ qy = py ∧ true = true) = false := decide_eq_false fun e => h ⟨e.1, e.2.1⟩
      rw [hd, Bool.false_bne]
      exact pixel_setPixel_ne _ _ _ _ _ _ hne

/-- A sprite bit records a collision when it is 1 and its pixel was lit. -/
theorem drawBit_collision (px : Col) (py : Row) (bit : Bool) (acc : Display × Bool) :
    (drawBit px py bit acc).2 = (acc.2 || (bit && acc.1.pixel px py)) := by
  cases bit <;> simp [drawBit]

/-- One sprite bit and the pixel under it. -/
structure Touch where
  px : Col
  py : Row
  bit : Bool

/-- The two bits lie over different pixels. -/
def Touch.apart (a b : Touch) : Prop := a.px ≠ b.px ∨ a.py ≠ b.py

/-- The bits of sprite row r, most significant first. -/
def rowTouches (bx byy r : Nat) (row : Byte) : List Touch :=
  (List.range 8).map fun b => ⟨spriteCol bx b, spriteRow byy r, row.getLsbD (7 - b)⟩

/-- The bits of all rows, from sprite row r on. -/
def touches (bx byy : Nat) : Nat → List Byte → List Touch
  | _, [] => []
  | r, row :: rows => rowTouches bx byy r row ++ touches bx byy (r + 1) rows

/-- The bits composited in order. -/
def drawTouches (l : List Touch) (acc : Display × Bool) : Display × Bool :=
  l.foldl (fun acc t => drawBit t.px t.py t.bit acc) acc

/-- Compositing the rows is compositing their bits in order. -/
theorem drawRows_eq (bx byy r : Nat) (rows : List Byte) (acc : Display × Bool) :
    drawRows bx byy r rows acc = drawTouches (touches bx byy r rows) acc := by
  induction rows generalizing r acc with
  | nil => rfl
  | cons row rows ih =>
    simp only [drawRows, touches, drawTouches, List.foldl_append] at ih ⊢
    rw [ih]
    simp only [rowTouches, List.foldl_map, drawRow]

/-- A 1 bit of the list lies over the pixel. -/
def covered (l : List Touch) (px : Col) (py : Row) : Prop := ∃ t ∈ l, t.bit = true ∧ px = t.px ∧ py = t.py

/-- Bits over distinct pixels invert the pixels under 1 bits and no other, and collide when one of those was lit. -/
theorem drawTouches_law (l : List Touch) (hl : l.Pairwise Touch.apart) (acc : Display × Bool) :
    (∀ px py, covered l px py → (drawTouches l acc).1.pixel px py = !acc.1.pixel px py) ∧
    (∀ px py, ¬ covered l px py → (drawTouches l acc).1.pixel px py = acc.1.pixel px py) ∧
    ((drawTouches l acc).2 = true ↔ acc.2 = true ∨ ∃ px py, covered l px py ∧ acc.1.pixel px py = true) := by
  induction l generalizing acc with
  | nil => simp [covered, drawTouches]
  | cons t l ih =>
    obtain ⟨ha, hl⟩ := List.pairwise_cons.mp hl
    obtain ⟨h1, h2, h3⟩ := ih hl (drawBit t.px t.py t.bit acc)
    have step : drawTouches (t :: l) acc = drawTouches l (drawBit t.px t.py t.bit acc) := rfl
    rw [step]
    have hn : ¬ covered l t.px t.py := by
      rintro ⟨u, hu, -, e1, e2⟩
      rcases ha u hu with h | h
      · exact h e1
      · exact h e2
    have hc : ∀ px py, covered (t :: l) px py ↔ (t.bit = true ∧ px = t.px ∧ py = t.py) ∨ covered l px py := by
      intro px py; simp [covered]
    have hp : ∀ px py, ¬ (px = t.px ∧ py = t.py ∧ t.bit = true) → 
        (drawBit t.px t.py t.bit acc).1.pixel px py = acc.1.pixel px py := by
      intro px py h; rw [drawBit_pixel]; simp [h]
    refine ⟨fun px py h => ?_, fun px py h => ?_, ?_⟩
    · rcases (hc _ _).mp h with ⟨hb, rfl, rfl⟩ | h
      · rw [h2 _ _ hn, drawBit_pixel]; simp [hb]
      · rw [h1 _ _ h, hp]
        rintro ⟨rfl, rfl, -⟩; exact hn h
    · rw [hc] at h; push Not at h
      rw [h2 _ _ h.2, hp]
      rintro ⟨rfl, rfl, hb⟩; exact h.1 hb rfl rfl
    · rw [h3, drawBit_collision]
      simp only [Bool.or_eq_true, Bool.and_eq_true, or_assoc]
      refine or_congr_right ⟨?_, ?_⟩
      · rintro (⟨hb, hl⟩ | ⟨px, py, h, hl⟩)
        · exact ⟨_, _, (hc _ _).mpr (.inl ⟨hb, rfl, rfl⟩), hl⟩
        · refine ⟨px, py, (hc _ _).mpr (.inr h), ?_⟩
          rwa [hp] at hl
          rintro ⟨rfl, rfl, -⟩; exact hn h
      · rintro ⟨px, py, h, hl⟩
        rcases (hc _ _).mp h with ⟨hb, rfl, rfl⟩ | h
        · exact .inl ⟨hb, hl⟩
        · refine .inr ⟨px, py, h, ?_⟩
          rwa [hp]
          rintro ⟨rfl, rfl, -⟩; exact hn h

/-- Each bit composited is bit 7 - b of some row k. -/
theorem touches_row {bx byy r : Nat} {rows : List Byte} {t : Touch} (h : t ∈ touches bx byy r rows) :
    ∃ k < rows.length, ∃ b < 8, t.px = spriteCol bx b ∧ t.py = spriteRow byy (r + k) ∧
      t.bit = (rows.getD k 0).getLsbD (7 - b) := by
  induction rows generalizing r with
  | nil => simp [touches] at h
  | cons row rows ih =>
    simp only [touches, List.mem_append] at h
    rcases h with h | h
    · simp only [rowTouches, List.mem_map, List.mem_range] at h
      obtain ⟨b, hb, rfl⟩ := h
      exact ⟨0, by simp, b, hb, rfl, rfl, rfl⟩
    · obtain ⟨k, hk, b, hb, e1, e2, e3⟩ := ih h
      refine ⟨k+1, by simpa using hk, b, hb, e1, ?_, by simpa using e3⟩
      rw [e2]; congr 1; omega

/-- Every bit 7 - b of every row k is composited. -/
theorem touches_mem (bx byy r : Nat) (rows : List Byte) (k b : Nat) (hk : k < rows.length) (hb : b < 8) :
    ⟨spriteCol bx b, spriteRow byy (r + k), (rows.getD k 0).getLsbD (7 - b)⟩ ∈ touches bx byy r rows := by
  induction rows generalizing r k with
  | nil => simp at hk
  | cons row rows ih =>
    simp only [touches, List.mem_append]
    cases k with
    | zero => left; simp only [rowTouches, List.mem_map, List.mem_range]; exact ⟨b, hb, rfl⟩
    | succ k =>
      right
      have := ih (r+1) k (by simpa using hk)
      simpa [show r + 1 + k = r + (k+1) by omega] using this

/-- A sprite of at most 32 rows touches no pixel twice. -/
theorem touches_pairwise (bx byy r : Nat) (rows : List Byte) (h : rows.length ≤ 32) :
    (touches bx byy r rows).Pairwise Touch.apart := by
  induction rows generalizing r with
  | nil => exact List.Pairwise.nil
  | cons row rows ih =>
    simp only [touches]
    rw [List.pairwise_append]
    simp only [List.length_cons] at h
    refine ⟨?_, ih _ (by omega), ?_⟩
    · unfold rowTouches
      rw [List.pairwise_map]
      refine List.Pairwise.imp_of_mem ?_ (List.pairwise_lt_range (n := 8))
      intro a b ha hb hab
      simp only [List.mem_range] at ha hb
      left; intro e
      have := congrArg Fin.val e
      simp only [spriteCol] at this; omega
    · intro a ha b hb
      simp only [rowTouches, List.mem_map, List.mem_range] at ha
      obtain ⟨c, hc, rfl⟩ := ha
      obtain ⟨k, hk, b', hb', _, e2, _⟩ := touches_row hb
      right; rw [e2]; intro e
      have := congrArg Fin.val e
      simp only [spriteRow] at this; omega

end Sys2Proof.Machine
end

