-- ==== Sys2Proof/Laws/Memory.lean ====
section
/-! SUPPORT. The laws of the byte store: a read after a write, and that every write keeps the canonical form. -/

namespace Sys2Proof.Machine

variable {font : Config.Font}

/-- Writing one address leaves every other as it was; no premise on the list. -/
theorem read_write_ne (m : List Host.Cell) (a a' : Nat) (b : Byte) (h : a' ≠ a) :
    Memory.read font a' (Memory.write font a b m) = Memory.read font a' m := by
  induction m with
  | nil => by_cases hb : b = resetByte font a <;> simp [Memory.write, Memory.read, hb, h]
  | cons p rest ih =>
    obtain ⟨k, c⟩ := p
    by_cases h1 : a < k
    · by_cases hb : b = resetByte font a <;> simp [Memory.write, Memory.read, h1, hb, h]
    · by_cases h2 : a = k
      · subst h2
        by_cases hb : b = resetByte font a <;> simp [Memory.write, Memory.read, hb, h]
      · simp only [Memory.write, h1, h2, if_false, Memory.read, ih]

/-- An address below every listed one reads as its reset byte. -/
theorem read_unlisted (m : List Host.Cell) (a : Nat) (h : ∀ p ∈ m, p.1 ≠ a) :
    Memory.read font a m = resetByte font a := by
  induction m with
  | nil => rfl
  | cons p rest ih =>
    have hp : a ≠ p.1 := fun e => h p (by simp) e.symm
    simp only [Memory.read, hp, if_false]
    exact ih fun q hq => h q (by simp [hq])

theorem wf_tail {p : Host.Cell} {m : List Host.Cell} (h : Memory.wf font (p :: m)) : Memory.wf font m :=
  ⟨(List.pairwise_cons.mp h.1).2, fun q hq => h.2 q (by simp [hq])⟩

/-- A read returns the byte last written there. -/
theorem read_write_same (m : List Host.Cell) (a : Nat) (b : Byte) (h : Memory.wf font m) :
    Memory.read font a (Memory.write font a b m) = b := by
  induction m with
  | nil => by_cases hb : b = resetByte font a <;> simp [Memory.write, Memory.read, hb]
  | cons p rest ih =>
    obtain ⟨k, c⟩ := p
    have hlt := (List.pairwise_cons.mp h.1).1
    by_cases h1 : a < k
    · by_cases hb : b = resetByte font a
      · simp only [Memory.write, h1, hb, if_true]
        refine read_unlisted _ _ fun q hq => ?_
        rcases List.mem_cons.mp hq with rfl | hq
        · exact Nat.ne_of_gt h1
        · exact Nat.ne_of_gt (Nat.lt_trans h1 (hlt q hq))
      · simp [Memory.write, Memory.read, h1, hb]
    · by_cases h2 : a = k
      · subst h2
        by_cases hb : b = resetByte font a
        · simp only [Memory.write, Nat.lt_irrefl, hb, if_true, if_false]
          exact read_unlisted _ _ fun q hq => Nat.ne_of_gt (hlt q hq)
        · simp [Memory.write, Memory.read, hb]
      · simp only [Memory.write, Memory.read, h1, h2, if_false]
        exact ih (wf_tail h)

/-- The cells of a written list: the new one, or old ones. -/
theorem mem_write {m : List Host.Cell} {a : Nat} {b : Byte} {p : Host.Cell} (h : p ∈ Memory.write font a b m) :
    p ∈ m ∨ (p = (a, b) ∧ b ≠ resetByte font a) := by
  induction m with
  | nil =>
    by_cases hb : b = resetByte font a
    · simp [Memory.write, hb] at h
    · simp only [Memory.write, hb, if_false, List.mem_singleton] at h
      exact .inr ⟨h, hb⟩
  | cons q rest ih =>
    obtain ⟨k, c⟩ := q
    by_cases h1 : a < k
    · by_cases hb : b = resetByte font a
      · simp only [Memory.write, h1, hb, if_true] at h
        exact .inl h
      · simp only [Memory.write, h1, hb, if_true, if_false] at h
        rcases List.mem_cons.mp h with rfl | h
        · exact .inr ⟨rfl, hb⟩
        · exact .inl h
    · by_cases h2 : a = k
      · subst h2
        by_cases hb : b = resetByte font a
        · simp only [Memory.write, Nat.lt_irrefl, hb, if_true, if_false] at h
          exact .inl (List.mem_cons_of_mem _ h)
        · simp only [Memory.write, Nat.lt_irrefl, hb, if_true, if_false] at h
          rcases List.mem_cons.mp h with rfl | h
          · exact .inr ⟨rfl, hb⟩
          · exact .inl (List.mem_cons_of_mem _ h)
      · simp only [Memory.write, h1, h2, if_false] at h
        rcases List.mem_cons.mp h with rfl | h
        · exact .inl (by simp)
        · rcases ih h with h | h
          · exact .inl (List.mem_cons_of_mem _ h)
          · exact .inr h

/-- A write inside the store keeps the canonical form. -/
theorem write_wf {m : List Host.Cell} {a : Nat} {b : Byte} (ha : a < memSize) (h : Memory.wf font m) :
    Memory.wf font (Memory.write font a b m) := by
  refine ⟨?_, fun p hp => ?_⟩
  · induction m with
    | nil => by_cases hb : b = resetByte font a <;> simp [Memory.write, hb]
    | cons q rest ih =>
      obtain ⟨k, c⟩ := q
      have hlt := (List.pairwise_cons.mp h.1).1
      have hrest := (List.pairwise_cons.mp h.1).2
      by_cases h1 : a < k
      · by_cases hb : b = resetByte font a
        · simpa only [Memory.write, h1, hb, if_true] using h.1
        · simp only [Memory.write, h1, hb, if_true, if_false]
          refine List.pairwise_cons.mpr ⟨fun p hp => ?_, h.1⟩
          rcases List.mem_cons.mp hp with rfl | hp
          · exact h1
          · exact Nat.lt_trans h1 (hlt p hp)
      · by_cases h2 : a = k
        · subst h2
          by_cases hb : b = resetByte font a
          · simpa only [Memory.write, Nat.lt_irrefl, hb, if_true, if_false] using hrest
          · simp only [Memory.write, Nat.lt_irrefl, hb, if_true, if_false]
            exact List.pairwise_cons.mpr ⟨hlt, hrest⟩
        · simp only [Memory.write, h1, h2, if_false]
          refine List.pairwise_cons.mpr ⟨fun p hp => ?_, ih (wf_tail h)⟩
          rcases mem_write hp with hp | ⟨rfl, -⟩
          · exact hlt p hp
          · exact Nat.lt_of_le_of_ne (Nat.le_of_not_lt h1) (Ne.symm h2)
  · rcases mem_write hp with hp | ⟨rfl, hb⟩
    · exact h.2 p hp
    · exact ⟨ha, hb⟩

/-- Writing a block leaves every address outside it as it was. -/
theorem read_writeAll_outside (bytes : List Byte) : ∀ (m : List Host.Cell) (base a : Nat),
    (a < base ∨ base + bytes.length ≤ a) →
      Memory.read font a (Memory.writeAll font base bytes m) = Memory.read font a m := by
  induction bytes with
  | nil => intro m base a _; rfl
  | cons b bs ih =>
    intro m base a h
    simp only [List.length_cons] at h
    rw [Memory.writeAll, ih _ _ _ (by omega), read_write_ne _ _ _ _ (by omega)]

/-- Writing a block inside the store keeps the canonical form. -/
theorem writeAll_wf (bytes : List Byte) : ∀ (m : List Host.Cell) (base : Nat),
    (bytes = [] ∨ base + bytes.length ≤ memSize) → Memory.wf font m →
      Memory.wf font (Memory.writeAll font base bytes m) := by
  induction bytes with
  | nil => intro m base _ h; exact h
  | cons b bs ih =>
    intro m base hb h
    have hlen : base + (bs.length + 1) ≤ memSize := by simpa using hb
    exact ih _ _ (.inr (by omega)) (write_wf (by omega) h)

/-- Inside a written block the bytes written stand. -/
theorem read_writeAll_inside (bytes : List Byte) : ∀ (m : List Host.Cell) (base j : Nat) (d : Byte),
    j < bytes.length → base + bytes.length ≤ memSize → Memory.wf font m →
    Memory.read font (base + j) (Memory.writeAll font base bytes m) = bytes.getD j d := by
  induction bytes with
  | nil => intro m base j d hj; simp at hj
  | cons b bs ih =>
    intro m base j d hj hlen h
    simp only [List.length_cons] at hj hlen
    rw [Memory.writeAll]
    cases j with
    | zero =>
      rw [Nat.add_zero, read_writeAll_outside _ _ _ _ (by omega), read_write_same _ _ _ h]
      rfl
    | succ j =>
      have := ih (Memory.write font base b m) (base + 1) j d (by omega) (by omega) (write_wf (by omega) h)
      rw [show base + (j + 1) = base + 1 + j by omega, this]
      rfl

/-- Two stores in canonical form that read alike everywhere are the same list. -/
theorem wf_ext : ∀ (m m' : List Host.Cell), Memory.wf font m → Memory.wf font m' →
    (∀ a, Memory.read font a m = Memory.read font a m') → m = m' := by
  intro m
  induction m with
  | nil =>
    intro m' _ h' hr
    cases m' with
    | nil => rfl
    | cons p rest =>
      exact absurd (by simpa [Memory.read] using (hr p.1).symm) (h'.2 p (by simp)).2
  | cons p rest ih =>
    intro m' h h' hr
    have hlt := (List.pairwise_cons.mp h.1).1
    cases m' with
    | nil => exact absurd (by simpa [Memory.read] using hr p.1) (h.2 p (by simp)).2
    | cons q rest' =>
      have hlt' := (List.pairwise_cons.mp h'.1).1
      have hk : p.1 = q.1 := by
        rcases Nat.lt_trichotomy p.1 q.1 with hl | he | hl
        · refine absurd ?_ (h.2 p (by simp)).2
          have e := hr p.1
          rw [read_unlisted (q :: rest') p.1 fun z hz => ?_] at e
          · simpa [Memory.read] using e
          · rcases List.mem_cons.mp hz with rfl | hz
            · exact Nat.ne_of_gt hl
            · exact Nat.ne_of_gt (Nat.lt_trans hl (hlt' z hz))
        · exact he
        · refine absurd ?_ (h'.2 q (by simp)).2
          have e := hr q.1
          rw [read_unlisted (p :: rest) q.1 fun z hz => ?_] at e
          · simpa [Memory.read] using e.symm
          · rcases List.mem_cons.mp hz with rfl | hz
            · exact Nat.ne_of_gt hl
            · exact Nat.ne_of_gt (Nat.lt_trans hl (hlt z hz))
      have hc : p.2 = q.2 := by simpa [Memory.read, hk] using hr p.1
      rw [Prod.ext hk hc, ih rest' (wf_tail h) (wf_tail h') fun a => ?_]
      by_cases ha : a = q.1
      · subst ha
        rw [read_unlisted rest q.1 fun z hz => Nat.ne_of_gt (hk ▸ hlt z hz),
          read_unlisted rest' q.1 fun z hz => Nat.ne_of_gt (hlt' z hz)]
      · simpa [Memory.read, hk, ha] using hr a

/-! ### The same of a state -/

theorem byteAt_store_outside (s : State) {base a : Nat} {bytes : List Byte}
    (h : a < base ∨ base + bytes.length ≤ a) : (s.store base bytes).byteAt a = s.byteAt a :=
  read_writeAll_outside bytes s.mem base a h

theorem byteAt_store_inside {s : State} {base j : Nat} {bytes : List Byte} (hw : Memory.wf s.params.font s.mem)
    (hj : j < bytes.length) (hb : base + bytes.length ≤ memSize) (d : Byte) :
    (s.store base bytes).byteAt (base + j) = bytes.getD j d :=
  read_writeAll_inside bytes s.mem base j d hj hb hw

theorem store_wf {s : State} {base : Nat} {bytes : List Byte} (hw : Memory.wf s.params.font s.mem)
    (hb : bytes = [] ∨ base + bytes.length ≤ memSize) : Memory.wf s.params.font (s.store base bytes).mem :=
  writeAll_wf bytes s.mem base hb hw

/-! ### The reset contents, for every FONT (R40) -/

theorem resetByte_glyph0 (font : Config.Font) :
    (List.range 5).map (resetByte font) = [0xF0, 0x90, 0x90, 0x90, 0xF0] := by
  simp [resetByte, fontBytes, glyph0, rowByte, List.range_succ]

/-- Row r of glyph d, in a list of glyphs laid out row by row. -/
theorem rows_getElem? (glyphs : List (Vector (BitVec 4) 5)) (d : Nat) (r : Fin 5) :
    (glyphs.flatMap (·.toList))[5 * d + r.val]? = glyphs[d]?.map (·[r]) := by
  induction glyphs generalizing d with
  | nil => rfl
  | cons g rest ih =>
    rw [List.flatMap_cons]
    cases d with
    | zero =>
      rw [List.getElem?_append_left (by simp)]
      simp
    | succ d =>
      rw [List.getElem?_append_right (by simp; omega)]
      simpa [show 5 * (d + 1) + r.val - 5 = 5 * d + r.val by omega] using ih d

theorem rowByte_toNat (row : BitVec 4) : (rowByte row).toNat = 16 * row.toNat := by
  revert row; decide

/-- Row r of glyph d + 1 stands at 5(d + 1) + r, its columns in the high bits (R40). -/
theorem resetByte_glyph (font : Config.Font) (d : Fin 15) (r : Fin 5) :
    resetByte font (5 * (d.val + 1) + r.val) = rowByte font[d][r] := by
  have h := rows_getElem? font.toList d.val r
  rw [resetByte, fontBytes, List.getD_eq_getElem?_getD, List.getElem?_map,
    List.getElem?_append_right (by simp [glyph0]; omega),
    show 5 * (d.val + 1) + r.val - glyph0.toList.length = 5 * d.val + r.val by simp [glyph0]; omega, h]
  simp

theorem fontBytes_length (font : Config.Font) : (fontBytes font).length = 80 := by
  simp [fontBytes]

theorem resetByte_above {a : Nat} (h : 80 ≤ a) (font : Config.Font) : resetByte font a = 0 := by
  rw [resetByte, List.getD_eq_getElem?_getD, List.getElem?_eq_none (by rw [fontBytes_length]; exact h)]
  rfl

end Sys2Proof.Machine
end

