-- ==== Sys2Proof/Laws/Ops.lean ====
section
/-! SUPPORT. One lemma per shared operation that says everything it can do, to be cited in place of unfolding it. -/

namespace Sys2Proof.Machine

/-! ### Single accesses -/

theorem memRead_ok {s : State} {a : Nat} (h : a < memSize) : memRead s a = .ok (s.byteAt a) := by
  simp only [memRead, Nat.not_le_of_lt h, if_false]

theorem memRead_error {s : State} {a : Nat} (h : memSize ≤ a) : memRead s a = .error (.memoryOutOfBounds a) := by
  simp only [memRead, h, if_true]

theorem memWrite_ok {s : State} {a : Nat} {b : Byte} (h : a < memSize) :
    memWrite s a b = .ok (s.store a [b]) := by
  simp only [memWrite, Nat.not_le_of_lt h, if_false]

/-! ### Blocks -/

/-- The lowest out-of-bounds address of a block: none where the block fits, else the first address at or above both
MEM_SIZE and the base (R38). -/
theorem lowestOutOfBounds_eq (base count : Nat) :
    lowestOutOfBounds base count =
      if count = 0 ∨ base + count ≤ memSize then none else some (max base memSize) := by
  unfold lowestOutOfBounds
  split
  · next h =>
    simp only [List.find?_eq_none, List.mem_map, List.mem_range, decide_eq_true_eq]
    rintro a ⟨j, hj, rfl⟩
    omega
  · next h =>
    have hc : 0 < count ∧ memSize < base + count := by omega
    rw [List.find?_eq_some_iff_getElem]
    refine ⟨by simp only [decide_eq_true_eq]; omega, max base memSize - base, ?_, ?_, ?_⟩
    · simp only [List.length_map, List.length_range]; omega
    · simp only [List.getElem_map, List.getElem_range]; omega
    · intro j hj
      simp only [List.getElem_map, List.getElem_range, Bool.not_eq_eq_eq_not, Bool.not_true, decide_eq_false_iff_not]
      omega

theorem checkBlock_ok {base count : Nat} (h : count = 0 ∨ base + count ≤ memSize) : checkBlock base count = .ok () := by
  simp only [checkBlock, lowestOutOfBounds_eq, h, if_true]

theorem checkBlock_error {base count : Nat} (h : ¬ (count = 0 ∨ base + count ≤ memSize)) :
    checkBlock base count = .error (.memoryOutOfBounds (max base memSize)) := by
  simp only [checkBlock, lowestOutOfBounds_eq, h, if_false]

/-- A block read: the bytes in rising order, or the fault at the lowest address out of bounds (R38). -/
theorem readBlock_ok {s : State} {base count : Nat} (h : count = 0 ∨ base + count ≤ memSize) :
    readBlock s base count = .ok ((List.range count).map fun j => s.byteAt (base + j)) := by
  simp only [readBlock, checkBlock_ok h]

theorem readBlock_error {s : State} {base count : Nat} (h : ¬ (count = 0 ∨ base + count ≤ memSize)) :
    readBlock s base count = .error (.memoryOutOfBounds (max base memSize)) := by
  simp only [readBlock, checkBlock_error h]

/-- A block write: all the bytes, or the fault at the lowest address out of bounds and none of them (R38). -/
theorem writeBlock_ok {s : State} {base : Nat} {bytes : List Byte}
    (h : bytes.length = 0 ∨ base + bytes.length ≤ memSize) :
    writeBlock s base bytes = .ok (s.store base bytes) := by
  simp only [writeBlock, checkBlock_ok h]

theorem writeBlock_error {s : State} {base : Nat} {bytes : List Byte}
    (h : ¬ (bytes.length = 0 ∨ base + bytes.length ≤ memSize)) :
    writeBlock s base bytes = .error (.memoryOutOfBounds (max base memSize)) := by
  simp only [writeBlock, checkBlock_error h]

/-! ### The call stack -/

theorem push_error {s : State} {w : Word} (h : s.params.stackDepth ≤ s.sp) : push s w = .error .stackOverflow :=
  if_pos h

theorem push_ok {s : State} {w : Word} (h : s.sp < s.params.stackDepth) :
    push s w = .ok { s with stack := s.stack.set s.sp w, sp := s.sp + 1 } :=
  if_neg (Nat.not_le.mpr h)

theorem pop_error {s : State} (h : s.sp = 0) : pop s = .error .stackUnderflow :=
  if_pos h

theorem pop_ok {s : State} (h : s.sp ≠ 0) : pop s = .ok (s.stackAt (s.sp - 1), { s with sp := s.sp - 1 }) :=
  if_neg h

/-- What the storage holds after Push: the pushed word at the old SP, the other entries as before (R19). -/
theorem stackAt_push {s t : State} {w : Word} (hl : s.sp < s.stack.length) (h : t.stack = s.stack.set s.sp w) (j : Nat) :
    t.stackAt j = if j = s.sp then w else s.stackAt j := by
  simp only [State.stackAt, h, List.getD_eq_getElem?_getD, List.getElem?_set, hl, if_true]
  by_cases e : s.sp = j
  · simp only [e, if_true, Option.getD_some]
  · simp only [e, Ne.symm e, if_false]

/-! ### Fetch -/

/-- The three ways a fetch ends (R53). -/
theorem fetch_cases (s : State) :
    (s.pc.toNat + 1 < memSize ∧ fetch s = .ok (opcodeOfBytes (s.byteAt s.pc.toNat) (s.byteAt (s.pc.toNat + 1)))) ∨
    (memSize ≤ s.pc.toNat ∧ fetch s = .error (.memoryOutOfBounds s.pc.toNat)) ∨
    (s.pc.toNat + 1 = memSize ∧ fetch s = .error (.memoryOutOfBounds (s.pc.toNat + 1))) := by
  by_cases h1 : memSize ≤ s.pc.toNat
  · exact .inr (.inl ⟨h1, by simp only [fetch, memRead_error h1]⟩)
  · by_cases h2 : memSize ≤ s.pc.toNat + 1
    · exact .inr (.inr ⟨by omega, by simp only [fetch, memRead_ok (Nat.lt_of_not_le h1), memRead_error h2]⟩)
    · exact .inl ⟨by omega, by
        simp only [fetch, memRead_ok (Nat.lt_of_not_le h1), memRead_ok (Nat.lt_of_not_le h2)]⟩

/-- A word reads PC, memory and the parameters alone. -/
theorem fetch_congr {s t : State} (hpc : t.pc = s.pc) (hmem : t.mem = s.mem) (hp : t.params = s.params) :
    fetch t = fetch s := by
  simp only [fetch, memRead, byteAt_congr hmem hp, hpc]

/-- A fetch does not read the model's own fields. -/
@[simp] theorem fetch_ownFields (s : State) (inputs : List HostTransaction) (rnd : Byte) (draws : Nat) :
    fetch { s with inputs := inputs, rnd := rnd, draws := draws } = fetch s := fetch_congr rfl rfl rfl

/-! ### Key operands -/

theorem keyOperand_ok {s : State} {x : Reg} (h : (s.getV x).toNat < 16) :
    keyOperand s x = .ok ⟨(s.getV x).toNat, h⟩ := by
  simp only [keyOperand, h, dif_pos]

theorem keyOperand_error {s : State} {x : Reg} (h : ¬ (s.getV x).toNat < 16) :
    keyOperand s x = .error (.invalidRegisterOrKeyIndex (s.getV x).toNat) := by
  simp only [keyOperand, h, dif_neg, not_false_eq_true]

/-! ### The end of an execute phase -/

theorem conclude_ok {w : Word} {s t : State} : conclude w s (.ok t) = .next t := rfl

theorem conclude_error {w : Word} {s : State} {f : Fault} :
    conclude w s (.error f) = .next (takeFault (some w) f s.undoAdvance) := rfl

@[simp] theorem undoAdvance_advance (s : State) : s.advance.undoAdvance = s := by
  simp [State.undoAdvance, State.advance, State.setPc]

end Sys2Proof.Machine
end

