-- ==== Sys2Proof/Laws/Exec.lean ====
section
/-! SUPPORT. What one instruction can do, said once: it takes a fault it may raise, or reports a warning, or has its
ordinary effect, whose frame `Ordinary` gives. -/

namespace Sys2Proof.Machine

/-- The frame of an instruction's ordinary effect: for each component, that it is unchanged, or which instructions
change it. -/
structure Ordinary (i : Instr) (s t : State) : Prop where
  log : t.log = s.log
  params : t.params = s.params
  keys : t.keys = s.keys
  inputs : t.inputs = s.inputs
  rnd : t.rnd = s.rnd
  draws : t.draws = s.draws
  run : t.run = s.run ∨ ∃ x, i = .ldVxK x ∧ t.run = .waitingKey x
  mem : t.mem = s.mem ∨ ((∃ x, i = .ldBVx x) ∨ ∃ x, i = .ldMemVx x) ∧
    ∃ base bytes, (bytes = [] ∨ base + bytes.length ≤ memSize) ∧ t.mem = (s.store base bytes).mem
  disp : t.disp = s.disp ∨ i = .cls ∨ ∃ x y n, i = .drw x y n
  index : t.i = s.i ∨ (∃ nnn, i = .ldI nnn) ∨ (∃ x, i = .addIVx x) ∨ ∃ x, i = .ldFVx x
  dt : t.dt = s.dt ∨ ∃ x, i = .ldDtVx x
  st : t.st = s.st ∨ ∃ x, i = .ldStVx x
  stack : (t.sp = s.sp ∧ t.stack = s.stack) ∨ i = .ret ∨ ∃ nnn, i = .call nnn
  stackWf : s.stackWf → t.stackWf

/-- The canonical form looks at memory and FONT alone. -/
theorem memWf_congr {s t : State} (hm : t.mem = s.mem) (hp : t.params = s.params) (h : s.memWf) : t.memWf := by
  unfold State.memWf; rwa [hm, hp]

/-- An ordinary effect keeps memory canonical: what it stores lies inside the store. -/
theorem Ordinary.memWf {i : Instr} {s t : State} (o : Ordinary i s t) (h : s.memWf) : t.memWf := by
  obtain hm | ⟨-, base, bytes, hb, hm⟩ := o.mem
  · exact memWf_congr hm o.params h
  · exact memWf_congr hm o.params (store_wf h hb)
/-- How an execute phase can end. -/
inductive ExecCase (i : Instr) (s t : State) : Prop where
  | fault (f : Fault) (may : mayRaise i f) (e : t = takeFault (some (encode i)) f s.undoAdvance)
  | warning (h : (∃ nnn, i = .sys nnn) ∨ ∃ w, i = .unmapped w) (e : t = reportUnmapped (encode i) s)
  | ordinary (h : Ordinary i s t)

/-! ### Frames of the effects instructions share -/

/-- An effect on the general registers alone is ordinary. -/
theorem ordinary_v (i : Instr) (s : State) (v' : Vector Byte 16) : Ordinary i s { s with v := v' } :=
  ⟨rfl, rfl, rfl, rfl, rfl, rfl, .inl rfl, .inl rfl, .inl rfl, .inl rfl, .inl rfl, .inl rfl, .inl ⟨rfl, rfl⟩, id⟩

theorem ordinary_setV (i : Instr) (s : State) (x : Reg) (b : Byte) : Ordinary i s (s.setV x b) := ordinary_v i s _

theorem ordinary_setResultAndFlag (i : Instr) (s : State) (x : Reg) (b : Byte) (c : Bool) :
    Ordinary i s (s.setResultAndFlag x b c) := ordinary_v i s _

theorem ordinary_setVs (i : Instr) (s : State) (bytes : List Byte) : Ordinary i s (s.setVs bytes) := ordinary_v i s _

theorem ordinary_setPc (i : Instr) (s : State) (w : Word) : Ordinary i s (s.setPc w) :=
  ⟨rfl, rfl, rfl, rfl, rfl, rfl, .inl rfl, .inl rfl, .inl rfl, .inl rfl, .inl rfl, .inl rfl, .inl ⟨rfl, rfl⟩, id⟩

theorem ordinary_skipIf (i : Instr) (s : State) (c : Bool) : Ordinary i s (s.skipIf c) := by
  cases c
  · exact ⟨rfl, rfl, rfl, rfl, rfl, rfl, .inl rfl, .inl rfl, .inl rfl, .inl rfl, .inl rfl, .inl rfl, .inl ⟨rfl, rfl⟩, id⟩
  · exact ordinary_setPc i s _

theorem ordinary_setI (i : Instr) (s : State) (w : Word)
    (h : (∃ nnn, i = .ldI nnn) ∨ (∃ x, i = .addIVx x) ∨ ∃ x, i = .ldFVx x) : Ordinary i s (s.setI w) :=
  ⟨rfl, rfl, rfl, rfl, rfl, rfl, .inl rfl, .inl rfl, .inl rfl, .inr h, .inl rfl, .inl rfl, .inl ⟨rfl, rfl⟩, id⟩

theorem ordinary_store (i : Instr) (s : State) (base : Nat) (bytes : List Byte)
    (hi : (∃ x, i = .ldBVx x) ∨ ∃ x, i = .ldMemVx x) (hb : bytes = [] ∨ base + bytes.length ≤ memSize) :
    Ordinary i s (s.store base bytes) :=
  ⟨rfl, rfl, rfl, rfl, rfl, rfl, .inl rfl, .inr ⟨hi, base, bytes, hb, rfl⟩, .inl rfl, .inl rfl, .inl rfl, .inl rfl,
    .inl ⟨rfl, rfl⟩, id⟩

/-! ### The instructions that may fault -/

/-- A block store either writes all its bytes or takes the fault at its lowest out-of-bounds address (R38). -/
theorem blockStore_cases {i : Instr} {s t : State} {bytes : List Byte}
    (hi : (∃ x, i = .ldBVx x) ∨ ∃ x, i = .ldMemVx x)
    (h : conclude (encode i) s (writeBlock s (s.effAddr 0) bytes) = .next t) : ExecCase i s t := by
  by_cases hb : bytes.length = 0 ∨ s.effAddr 0 + bytes.length ≤ memSize
  · rw [writeBlock_ok hb, conclude_ok] at h
    cases h
    exact .ordinary (ordinary_store i s _ _ hi (hb.imp List.length_eq_zero_iff.mp id))
  · rw [writeBlock_error hb, conclude_error] at h
    cases h
    exact .fault (.memoryOutOfBounds _) ⟨Nat.le_max_right _ _, .inr (hi.imp id .inl)⟩ rfl

theorem execRet_cases {s t : State} (h : execRet s = .next t) : ExecCase .ret s t := by
  unfold execRet at h
  by_cases h0 : s.sp = 0
  · rw [pop_error h0] at h
    cases h
    exact .fault .stackUnderflow rfl rfl
  · rw [pop_ok h0] at h
    cases h
    exact .ordinary ⟨rfl, rfl, rfl, rfl, rfl, rfl, .inl rfl, .inl rfl, .inl rfl, .inl rfl, .inl rfl, .inl rfl, .inr (.inl rfl),
      fun hw => ⟨hw.1, Nat.le_trans (Nat.sub_le _ _) hw.2⟩⟩

theorem execCall_cases {nnn : BitVec 12} {s t : State} (h : execCall nnn s = .next t) : ExecCase (.call nnn) s t := by
  unfold execCall at h
  by_cases h0 : s.sp < s.params.stackDepth
  · rw [push_ok h0] at h
    cases h
    exact .ordinary ⟨rfl, rfl, rfl, rfl, rfl, rfl, .inl rfl, .inl rfl, .inl rfl, .inl rfl, .inl rfl, .inl rfl,
      .inr (.inr ⟨nnn, rfl⟩), fun hw => ⟨(List.length_set ..).trans hw.1, h0⟩⟩
  · rw [push_error (Nat.le_of_not_lt h0)] at h
    cases h
    exact .fault .stackOverflow ⟨nnn, rfl⟩ rfl

theorem execDrw_cases {x y : Reg} {n : Fin 16} {s t : State} (h : execDrw x y n s = .next t) :
    ExecCase (.drw x y n) s t := by
  unfold execDrw at h
  by_cases hb : n.val = 0 ∨ s.effAddr 0 + n.val ≤ memSize
  · rw [readBlock_ok hb] at h
    cases h
    exact .ordinary ⟨rfl, rfl, rfl, rfl, rfl, rfl, .inl rfl, .inl rfl, .inr (.inr ⟨x, y, n, rfl⟩), .inl rfl, .inl rfl,
      .inl rfl, .inl ⟨rfl, rfl⟩, id⟩
  · rw [readBlock_error hb] at h
    cases h
    exact .fault (.memoryOutOfBounds _) ⟨Nat.le_max_right _ _, .inl ⟨x, y, n, rfl⟩⟩ rfl

theorem execLdVxMem_cases {x : Reg} {s t : State} (h : execLdVxMem x s = .next t) : ExecCase (.ldVxMem x) s t := by
  unfold execLdVxMem at h
  by_cases hb : x.val + 1 = 0 ∨ s.effAddr 0 + (x.val + 1) ≤ memSize
  · rw [readBlock_ok hb] at h
    cases h
    exact .ordinary (ordinary_setVs _ _ _)
  · rw [readBlock_error hb] at h
    cases h
    exact .fault (.memoryOutOfBounds _) ⟨Nat.le_max_right _ _, .inr (.inr (.inr ⟨x, rfl⟩))⟩ rfl

theorem execSkp_cases {x : Reg} {s t : State} (h : execSkp x s = .next t) : ExecCase (.skp x) s t := by
  unfold execSkp at h
  by_cases hk : (s.getV x).toNat < 16
  · rw [keyOperand_ok hk] at h
    cases h
    exact .ordinary (ordinary_skipIf _ _ _)
  · rw [keyOperand_error hk] at h
    cases h
    exact .fault (.invalidRegisterOrKeyIndex _) ⟨Nat.lt_of_succ_le (Nat.le_of_not_lt hk), .inl ⟨x, rfl⟩⟩ rfl

theorem execSknp_cases {x : Reg} {s t : State} (h : execSknp x s = .next t) : ExecCase (.sknp x) s t := by
  unfold execSknp at h
  by_cases hk : (s.getV x).toNat < 16
  · rw [keyOperand_ok hk] at h
    cases h
    exact .ordinary (ordinary_skipIf _ _ _)
  · rw [keyOperand_error hk] at h
    cases h
    exact .fault (.invalidRegisterOrKeyIndex _) ⟨Nat.lt_of_succ_le (Nat.le_of_not_lt hk), .inr ⟨x, rfl⟩⟩ rfl

/-! ### All instructions -/

/-- What an instruction does when it answers a next state. -/
theorem exec_cases {i : Instr} {s t : State} (h : exec i s = .next t) : ExecCase i s t := by
  cases i with
  | cls =>
    cases h
    exact .ordinary ⟨rfl, rfl, rfl, rfl, rfl, rfl, .inl rfl, .inl rfl, .inr (.inl rfl), .inl rfl, .inl rfl, .inl rfl,
      .inl ⟨rfl, rfl⟩, id⟩
  | ret => exact execRet_cases h
  | sys nnn => cases h; exact .warning (.inl ⟨nnn, rfl⟩) rfl
  | jp nnn => cases h; exact .ordinary (ordinary_setPc _ _ _)
  | call nnn => exact execCall_cases h
  | seImm x kk => cases h; exact .ordinary (ordinary_skipIf _ _ _)
  | sneImm x kk => cases h; exact .ordinary (ordinary_skipIf _ _ _)
  | seReg x y => cases h; exact .ordinary (ordinary_skipIf _ _ _)
  | ldImm x kk => cases h; exact .ordinary (ordinary_setV _ _ _ _)
  | addImm x kk => cases h; exact .ordinary (ordinary_setV _ _ _ _)
  | ldReg x y => cases h; exact .ordinary (ordinary_setV _ _ _ _)
  | orReg x y => cases h; exact .ordinary (ordinary_setV _ _ _ _)
  | andReg x y => cases h; exact .ordinary (ordinary_setV _ _ _ _)
  | xorReg x y => cases h; exact .ordinary (ordinary_setV _ _ _ _)
  | addReg x y => cases h; exact .ordinary (ordinary_setResultAndFlag _ _ _ _ _)
  | sub x y => cases h; exact .ordinary (ordinary_setResultAndFlag _ _ _ _ _)
  | shr x y => cases h; exact .ordinary (ordinary_setResultAndFlag _ _ _ _ _)
  | subn x y => cases h; exact .ordinary (ordinary_setResultAndFlag _ _ _ _ _)
  | shl x y => cases h; exact .ordinary (ordinary_setResultAndFlag _ _ _ _ _)
  | sneReg x y => cases h; exact .ordinary (ordinary_skipIf _ _ _)
  | ldI nnn => cases h; exact .ordinary (ordinary_setI _ _ _ (.inl ⟨nnn, rfl⟩))
  | jpV0 nnn => cases h; exact .ordinary (ordinary_setPc _ _ _)
  | rnd x kk => cases h; exact .ordinary (ordinary_setV _ _ _ _)
  | drw x y n => exact execDrw_cases h
  | skp x => exact execSkp_cases h
  | sknp x => exact execSknp_cases h
  | ldVxDt x => cases h; exact .ordinary (ordinary_setV _ _ _ _)
  | ldVxK x =>
    cases h
    exact .ordinary ⟨rfl, rfl, rfl, rfl, rfl, rfl, .inr ⟨x, rfl, rfl⟩, .inl rfl, .inl rfl, .inl rfl, .inl rfl, .inl rfl,
      .inl ⟨rfl, rfl⟩, id⟩
  | ldDtVx x =>
    cases h
    exact .ordinary ⟨rfl, rfl, rfl, rfl, rfl, rfl, .inl rfl, .inl rfl, .inl rfl, .inl rfl, .inr ⟨x, rfl⟩, .inl rfl,
      .inl ⟨rfl, rfl⟩, id⟩
  | ldStVx x =>
    cases h
    exact .ordinary ⟨rfl, rfl, rfl, rfl, rfl, rfl, .inl rfl, .inl rfl, .inl rfl, .inl rfl, .inl rfl, .inr ⟨x, rfl⟩,
      .inl ⟨rfl, rfl⟩, id⟩
  | addIVx x => cases h; exact .ordinary (ordinary_setI _ _ _ (.inr (.inl ⟨x, rfl⟩)))
  | ldFVx x => cases h; exact .ordinary (ordinary_setI _ _ _ (.inr (.inr ⟨x, rfl⟩)))
  | ldBVx x => exact blockStore_cases (.inl ⟨x, rfl⟩) h
  | ldMemVx x => exact blockStore_cases (.inr ⟨x, rfl⟩) h
  | ldVxMem x => exact execLdVxMem_cases h
  | unmapped w => cases h; exact .warning (.inr ⟨w, rfl⟩) rfl

/-- An execute phase concludes in a next state, whatever its pseudocode did (R104). -/
theorem conclude_next (w : Word) (s : State) (r : Except Fault State) : ∃ t, conclude w s r = .next t := by
  cases r with
  | ok t => exact ⟨t, rfl⟩
  | error f => exact ⟨_, rfl⟩

end Sys2Proof.Machine
end

