-- ==== Sys2Proof/Laws/PerInstr.lean ====
section
/-! SUPPORT. One fact per instruction about its encoding: the top nibble of its word is the one R50 gives its family. -/

namespace Sys2Proof.Laws.TopNibble

/-- The top nibble of R50 for each instruction; an `unmapped` word carries its own. -/
def topNibble : Instr → Fin 16
  | .cls => 0x0
  | .ret => 0x0
  | .sys _ => 0x0
  | .jp _ => 0x1
  | .call _ => 0x2
  | .seImm _ _ => 0x3
  | .sneImm _ _ => 0x4
  | .seReg _ _ => 0x5
  | .ldImm _ _ => 0x6
  | .addImm _ _ => 0x7
  | .ldReg _ _ => 0x8
  | .orReg _ _ => 0x8
  | .andReg _ _ => 0x8
  | .xorReg _ _ => 0x8
  | .addReg _ _ => 0x8
  | .sub _ _ => 0x8
  | .shr _ _ => 0x8
  | .subn _ _ => 0x8
  | .shl _ _ => 0x8
  | .sneReg _ _ => 0x9
  | .ldI _ => 0xA
  | .jpV0 _ => 0xB
  | .rnd _ _ => 0xC
  | .drw _ _ _ => 0xD
  | .skp _ => 0xE
  | .sknp _ => 0xE
  | .ldVxDt _ => 0xF
  | .ldVxK _ => 0xF
  | .ldDtVx _ => 0xF
  | .ldStVx _ => 0xF
  | .addIVx _ => 0xF
  | .ldFVx _ => 0xF
  | .ldBVx _ => 0xF
  | .ldMemVx _ => 0xF
  | .ldVxMem _ => 0xF
  | .unmapped w => fieldOp w

/-- The encoded word starts with the instruction's top nibble. -/
def Statement (i : Instr) : Prop := fieldOp (encode i) = topNibble i

theorem cls : Statement .cls := rfl
theorem ret : Statement .ret := rfl
theorem sys (nnn : BitVec 12) : Statement (.sys nnn) := fieldOp_formatA _ _
theorem jp (nnn : BitVec 12) : Statement (.jp nnn) := fieldOp_formatA _ _
theorem call (nnn : BitVec 12) : Statement (.call nnn) := fieldOp_formatA _ _
theorem seImm (x : Reg) (kk : Byte) : Statement (.seImm x kk) := fieldOp_formatXK _ _ _
theorem sneImm (x : Reg) (kk : Byte) : Statement (.sneImm x kk) := fieldOp_formatXK _ _ _
theorem seReg (x y : Reg) : Statement (.seReg x y) := fieldOp_formatXY _ _ _ _
theorem ldImm (x : Reg) (kk : Byte) : Statement (.ldImm x kk) := fieldOp_formatXK _ _ _
theorem addImm (x : Reg) (kk : Byte) : Statement (.addImm x kk) := fieldOp_formatXK _ _ _
theorem ldReg (x y : Reg) : Statement (.ldReg x y) := fieldOp_formatXY _ _ _ _
theorem orReg (x y : Reg) : Statement (.orReg x y) := fieldOp_formatXY _ _ _ _
theorem andReg (x y : Reg) : Statement (.andReg x y) := fieldOp_formatXY _ _ _ _
theorem xorReg (x y : Reg) : Statement (.xorReg x y) := fieldOp_formatXY _ _ _ _
theorem addReg (x y : Reg) : Statement (.addReg x y) := fieldOp_formatXY _ _ _ _
theorem sub (x y : Reg) : Statement (.sub x y) := fieldOp_formatXY _ _ _ _
theorem shr (x y : Reg) : Statement (.shr x y) := fieldOp_formatXY _ _ _ _
theorem subn (x y : Reg) : Statement (.subn x y) := fieldOp_formatXY _ _ _ _
theorem shl (x y : Reg) : Statement (.shl x y) := fieldOp_formatXY _ _ _ _
theorem sneReg (x y : Reg) : Statement (.sneReg x y) := fieldOp_formatXY _ _ _ _
theorem ldI (nnn : BitVec 12) : Statement (.ldI nnn) := fieldOp_formatA _ _
theorem jpV0 (nnn : BitVec 12) : Statement (.jpV0 nnn) := fieldOp_formatA _ _
theorem rnd (x : Reg) (kk : Byte) : Statement (.rnd x kk) := fieldOp_formatXK _ _ _
theorem drw (x y : Reg) (n : Fin 16) : Statement (.drw x y n) := fieldOp_formatXY _ _ _ _
theorem skp (x : Reg) : Statement (.skp x) := fieldOp_formatXK _ _ _
theorem sknp (x : Reg) : Statement (.sknp x) := fieldOp_formatXK _ _ _
theorem ldVxDt (x : Reg) : Statement (.ldVxDt x) := fieldOp_formatXK _ _ _
theorem ldVxK (x : Reg) : Statement (.ldVxK x) := fieldOp_formatXK _ _ _
theorem ldDtVx (x : Reg) : Statement (.ldDtVx x) := fieldOp_formatXK _ _ _
theorem ldStVx (x : Reg) : Statement (.ldStVx x) := fieldOp_formatXK _ _ _
theorem addIVx (x : Reg) : Statement (.addIVx x) := fieldOp_formatXK _ _ _
theorem ldFVx (x : Reg) : Statement (.ldFVx x) := fieldOp_formatXK _ _ _
theorem ldBVx (x : Reg) : Statement (.ldBVx x) := fieldOp_formatXK _ _ _
theorem ldMemVx (x : Reg) : Statement (.ldMemVx x) := fieldOp_formatXK _ _ _
theorem ldVxMem (x : Reg) : Statement (.ldVxMem x) := fieldOp_formatXK _ _ _
theorem unmapped (w : Word) : Statement (.unmapped w) := rfl

end Sys2Proof.Laws.TopNibble
end

