-- ==== Sys2Proof/Laws/Transactions.lean ====
section
/-! SUPPORT. The frame of each host transaction, and the lookup of host keys. -/

namespace Sys2Proof.Machine

/-! ### Timers and key flags -/

theorem tick_frame (s : State) : tick s = { s with dt := tickTimer s.dt, st := tickTimer s.st } := rfl

theorem setKeyFlag_frame (k : Nat) (down : Bool) (s : State) :
    setKeyFlag k down s = { s with keys := (setKeyFlag k down s).keys } := by
  unfold setKeyFlag
  split <;> rfl

theorem setKeyFlag_valid {k : Nat} (h : k < 16) (down : Bool) (s : State) :
    setKeyFlag k down s = s.setKey ⟨k, h⟩ down := by
  simp only [setKeyFlag, h, dif_pos]

theorem setKeyFlag_invalid {k : Nat} (h : ¬ k < 16) (down : Bool) (s : State) : setKeyFlag k down s = s := by
  simp only [setKeyFlag, h, dif_neg, not_false_eq_true]

/-! ### Key input -/

theorem keyInput_frame {κ : Type} [DecidableEq κ] (table : Vector κ 16) (h : κ) (s : State) :
    keyInput table h s = { s with v := (keyInput table h s).v, run := (keyInput table h s).run } := by
  unfold keyInput
  split
  · split <;> rfl
  · rfl
  · rfl

theorem keyInput_mapped {κ : Type} [DecidableEq κ] {table : Vector κ 16} {h : κ} {s : State} {x : Reg} {k : Key}
    (hw : s.run = .waitingKey x) (hm : mapKey table h = some k) :
    keyInput table h s = (s.setV x (BitVec.ofNat 8 k.val)).setRun .running := by
  simp only [keyInput, hw, hm]

theorem keyInput_unmapped {κ : Type} [DecidableEq κ] {table : Vector κ 16} {h : κ} {s : State} {x : Reg}
    (hw : s.run = .waitingKey x) (hm : mapKey table h = none) : keyInput table h s = s := by
  simp only [keyInput, hw, hm]

/-! ### The lookup, and host keys of another type -/

theorem mapKey_some {κ : Type} [DecidableEq κ] {table : Vector κ 16} {h : κ} {k : Key} (hm : mapKey table h = some k) :
    table[k] = h := by
  simpa using List.find?_some hm

theorem mapKey_eq_none_iff {κ : Type} [DecidableEq κ] {table : Vector κ 16} {h : κ} :
    mapKey table h = none ↔ ∀ k : Key, table[k] ≠ h := by
  simp [mapKey, List.find?_eq_none]

/-- Every entry of a table is mapped. -/
theorem mapKey_entry {κ : Type} [DecidableEq κ] (table : Vector κ 16) (k : Key) :
    ∃ j : Key, mapKey table table[k] = some j := by
  cases hm : mapKey table table[k] with
  | some j => exact ⟨j, rfl⟩
  | none => exact absurd rfl (mapKey_eq_none_iff.mp hm k)

/-- A host key's name tells it apart from the others as far as the table does. -/
theorem keyName_eq_iff {κ : Type} [DecidableEq κ] (table : Vector κ 16) (k : Key) (h : κ) :
    keyName table table[k] = keyName table h ↔ table[k] = h := by
  refine ⟨fun e => ?_, fun e => by rw [e]⟩
  obtain ⟨j, hj⟩ := mapKey_entry table k
  rw [← mapKey_some hj]
  cases hm : mapKey table h with
  | some i =>
    simp only [keyName, hj, hm, Config.HostKey.other.injEq] at e
    rw [← mapKey_some hm, Fin.ext e]
  | none =>
    simp only [keyName, hj, hm, Config.HostKey.other.injEq] at e
    exact absurd e (Nat.ne_of_lt j.isLt)

/-- The lookup of a name in the table of names is the lookup of the host key in its table (R121). -/
theorem mapKey_keyName {κ : Type} [DecidableEq κ] (table : Vector κ 16) (h : κ) :
    mapKey (table.map (keyName table)) (keyName table h) = mapKey table h := by
  have (k : Key) : decide ((table.map (keyName table))[k] = keyName table h) = decide (table[k] = h) := by
    rw [decide_eq_decide, ← keyName_eq_iff table k h]
    simp
  simp only [mapKey, this]

theorem enabled_map {κ κ' : Type} (f : κ → κ') (t : Transaction κ) (r : RunState) :
    enabled (t.map f) r = enabled t r := by
  cases t <;> cases r <;> rfl

/-! ### Loading -/

theorem loadTooLarge_iff (bytes : List Byte) : loadTooLarge bytes = true ↔ memSize ≤ bytes.length + progBase := by
  simp only [loadTooLarge, decide_eq_true_eq]

theorem load_refused {bytes : List Byte} (h : loadTooLarge bytes = true) (s : State) : load bytes s = s := by
  simp only [load, h, if_true]

theorem load_accepted {bytes : List Byte} (h : loadTooLarge bytes = false) (s : State) :
    load bytes s = (s.store progBase bytes).setPc (BitVec.ofNat 16 progBase) := by
  simp only [load, h, Bool.false_eq_true, if_false]

theorem load_frame (bytes : List Byte) (s : State) :
    load bytes s = { s with mem := (load bytes s).mem, pc := (load bytes s).pc } := by
  cases h : loadTooLarge bytes with
  | true => rw [load_refused h]
  | false => rw [load_accepted h]; rfl

/-- A loaded program fits below 0xFFF, so memory keeps its canonical form. -/
theorem load_wf (bytes : List Byte) (s : State) (h : Memory.wf s.params.font s.mem) :
    Memory.wf s.params.font (load bytes s).mem := by
  cases hl : loadTooLarge bytes with
  | true => rwa [load_refused hl]
  | false =>
    have hlt : ¬ memSize ≤ bytes.length + progBase := by rw [← loadTooLarge_iff, hl]; exact Bool.false_ne_true
    rw [load_accepted hl]
    exact store_wf h (.inr (by omega))

/-! ### Reset -/

theorem resetCore_frame (s : State) :
    resetCore s =
      { State.resetWith s.params with log := s.log, inputs := s.inputs, rnd := s.rnd, draws := s.draws } := rfl

end Sys2Proof.Machine
end

