-- ==== Sys2Proof/Laws/Step.lean ====
section
/-! SUPPORT. What one step can do, said once: nothing, a disabled transaction dropped, a fetch fault taken, an
instruction run, or an enabled host transaction. -/

namespace Sys2Proof.Machine

/-! ### One step, by what the schedule holds -/

/-- A scheduled Step of a Running core is one cycle with its byte. -/
theorem step_scheduledStep {s : State} {rnd : Byte} {rest : List HostTransaction} (hrun : s.run = .running)
    (hin : s.inputs = .step rnd :: rest) : step s = cycle { s with inputs := rest, rnd := rnd } := by
  have he : enabled (.step rnd : HostTransaction) s.run = true := by rw [hrun]; rfl
  unfold step
  rw [hin]
  exact if_pos he

theorem step_unscheduled {s : State} (hin : s.inputs = []) : step s = idle s := by
  unfold step
  rw [hin]

/-- With nothing scheduled, a Running core takes a cycle with a free byte. -/
theorem step_freeStep {s : State} (hrun : s.run = .running) (hin : s.inputs = []) :
    step s = cycle { s with rnd := Config.freeRnd s.draws, draws := s.draws + 1 } := by
  rw [step_unscheduled hin]
  have h : idle s = freeStep s := by unfold idle; rw [hrun]
  exact h

/-- With nothing scheduled, a core that waits or is faulted stays as it is. -/
theorem step_suspended {s : State} (hrun : s.run ≠ .running) (hin : s.inputs = []) : step s = .next s := by
  rw [step_unscheduled hin, idle]
  cases h : s.run with
  | running => exact absurd h hrun
  | waitingKey x => rfl
  | faulted f => rfl

/-- An enabled transaction takes effect once it is off the schedule. -/
theorem step_enabled {s : State} {tr : HostTransaction} {rest : List HostTransaction} (hin : s.inputs = tr :: rest)
    (he : enabled tr s.run = true) : step s = applyTransaction s.params.keyTable tr { s with inputs := rest } := by
  unfold step
  rw [hin]
  exact if_pos he

/-- A transaction that is not enabled is dropped. -/
theorem step_disabled {s : State} {tr : HostTransaction} {rest : List HostTransaction} (hin : s.inputs = tr :: rest)
    (he : enabled tr s.run = false) : step s = .next { s with inputs := rest } := by
  unfold step
  rw [hin]
  exact if_neg (by rw [he]; exact Bool.false_ne_true)

/-- A cycle is the taking of a fetch fault, or the execution of the decoded word. -/
theorem cycle_error {s : State} {f : Fault} (h : fetch s = .error f) : cycle s = .next (takeFault none f s) := by
  simp only [cycle, h]

theorem cycle_ok {s : State} {w : Word} (h : fetch s = .ok w) : cycle s = exec (decodeWord w) s.advance := by
  simp only [cycle, h]

/-! ### Inversion -/

/-- S is s but for the model's own fields: the state a Step starts from once its byte is latched. -/
def latched (s S : State) : Prop := S = { s with inputs := S.inputs, rnd := S.rnd, draws := S.draws }

/-- How a step can end. -/
inductive StepCase (s t : State) : Prop where
  | idle (hrun : s.run ≠ .running) (hin : s.inputs = []) (e : t = s)
  | disabled (tr : HostTransaction) (rest : List HostTransaction) (hin : s.inputs = tr :: rest)
      (hd : enabled tr s.run = false) (e : t = { s with inputs := rest })
  | fetchFault (S : State) (f : Fault) (same : latched s S) (hrun : s.run = .running) (hf : fetch S = .error f)
      (e : t = takeFault none f S)
  | ran (S : State) (w : Word) (same : latched s S) (next : runsNext s (decodeWord w)) (hf : fetch S = .ok w)
      (e : exec (decodeWord w) S.advance = .next t)
  | host (tr : HostTransaction) (rest : List HostTransaction) (hin : s.inputs = tr :: rest)
      (he : enabled tr s.run = true) (notStep : ∀ b, tr ≠ .step b)
      (e : applyTransaction s.params.keyTable tr { s with inputs := rest } = .next t)

theorem enabled_step {b : Byte} {r : RunState} (h : enabled (.step b : HostTransaction) r = true) : r = .running := by
  cases r <;> first | rfl | cases h

/-- A cycle from a latched state is a fetch fault or an instruction run. -/
theorem cycle_cases {s S t : State} (same : latched s S) (hrun : s.run = .running)
    (hin : s.inputs = [] ∨ ∃ rnd rest, s.inputs = .step rnd :: rest) (h : cycle S = .next t) : StepCase s t := by
  unfold cycle at h
  cases hf : fetch S with
  | error f =>
    rw [hf] at h
    cases h
    exact .fetchFault S f same hrun hf rfl
  | ok w =>
    rw [hf] at h
    have hs : fetch s = .ok w := by
      rw [← hf, same]
      exact fetch_congr rfl rfl rfl
    exact .ran S w same ⟨hrun, ⟨w, hs, rfl⟩, hin⟩ hf h

theorem step_cases {s t : State} (h : step s = .next t) : StepCase s t := by
  cases hin : s.inputs with
  | nil =>
    by_cases hrun : s.run = .running
    · rw [step_freeStep hrun hin] at h
      exact cycle_cases (S := { s with rnd := Config.freeRnd s.draws, draws := s.draws + 1 }) rfl hrun (.inl hin) h
    · rw [step_suspended hrun hin] at h
      cases h
      exact .idle hrun hin rfl
  | cons tr rest =>
    cases he : enabled tr s.run with
    | false =>
      rw [step_disabled hin he] at h
      cases h
      exact .disabled tr rest hin he rfl
    | true =>
      rw [step_enabled hin he] at h
      by_cases hs : ∃ b, tr = .step b
      · obtain ⟨b, rfl⟩ := hs
        exact cycle_cases (S := { s with inputs := rest, rnd := b }) rfl (enabled_step he) (.inr ⟨b, rest, hin⟩) h
      · exact .host tr rest hin he (fun b e => hs ⟨b, e⟩) h

end Sys2Proof.Machine
end

