-- ==== Sys2Proof/Tests/Slice0.lean ====
section
/-! SUPPORT. Tests: WellFormed on ill-formed terms, decoding of words written out from R49 and R50, one-step tests whose
expected results are the vectors of spec/95_test_vectors.md (named V<n>.<m> and S<n> there), and a witness for the
hypotheses of every statement that has some. -/

namespace Sys2Proof.Tests

open Sys2Proof Sys2Proof.Machine

/-! ### Helpers -/

/-- s with the opcode w at 0x200, PC there, and one Step scheduled that carries the byte rnd. -/
def before (w : Word) (s : State) (rnd : Byte := 0) : State :=
  { s.store 0x200 (bytesOfOpcode w) with
    pc := 0x200
    inputs := [.step rnd] }

/-- The next state, or s itself where there is none. -/
def next (s : State) : State :=
  match step s with
  | .next t => t
  | .fault _ => s
  | .refused _ => s

/-- The state after one Step on the opcode w at 0x200. -/
def ran (w : Word) (s : State) (rnd : Byte := 0) : State := next (before w s rnd)

/-- The state after one host transaction. -/
def issued (tr : HostTransaction) (s : State) : State := next { s with inputs := [tr] }

/-- Registers set from the reset state. -/
def regs (l : List (Reg × Byte)) : State := l.foldl (fun s p => s.setV p.1 p.2) State.reset

/-- The lit pixels of the first 8 columns and 6 rows, column by column. -/
def lit (s : State) : List (Nat × Nat) :=
  (List.range 8).flatMap fun px =>
    ((List.range 6).filter fun py => s.disp.pixel (Fin.ofNat 64 px) (Fin.ofNat 32 py)).map fun py => (px, py)

/-- The bytes from a on. -/
def bytesAt (s : State) (a n : Nat) : List Byte := (List.range n).map fun j => s.byteAt (a + j)

/-- The run state after a fault of the opcode w at 0x200. -/
def faultedAt200 (f : Fault) (w : Word) : RunState := .faulted ⟨f, some w, 0x200⟩

/-! ### WellFormed refuses ill-formed terms -/

theorem test_wellFormed_refuses_sys_of_cls : WellFormed (.sys 0x0E0) = false := by decide
theorem test_wellFormed_refuses_sys_of_ret : WellFormed (.sys 0x0EE) = false := by decide
theorem test_wellFormed_refuses_unmapped_of_mapped :
    WellFormed (.unmapped 0x00E0) = false ∧ WellFormed (.unmapped 0x0123) = false ∧
    WellFormed (.unmapped 0x1234) = false ∧ WellFormed (.unmapped 0x5AB0) = false ∧
    WellFormed (.unmapped 0x9AB0) = false ∧ WellFormed (.unmapped 0x8ABE) = false ∧
    WellFormed (.unmapped 0xE19E) = false ∧ WellFormed (.unmapped 0xF165) = false := by decide
theorem test_wellFormed_accepts_unmapped :
    WellFormed (.unmapped 0x5AB1) = true ∧ WellFormed (.unmapped 0x9AB1) = true ∧
    WellFormed (.unmapped 0x8008) = true ∧ WellFormed (.unmapped 0x800F) = true ∧
    WellFormed (.unmapped 0xE1A0) = true ∧ WellFormed (.unmapped 0xF000) = true := by decide

/-! ### Decoding: one word per instruction, written out in bits from R49 and R50 -/

theorem test_decode_screen : decodeWord 0b0000_0000_1110_0000 = .cls ∧ decodeWord 0b0000_0000_1110_1110 = .ret ∧
    decodeWord 0b0000_0001_0010_0011 = .sys 0x123 ∧ decodeWord 0x0000 = .sys 0 := by decide
theorem test_decode_jumps : decodeWord 0b0001_0010_0011_0100 = .jp 0x234 ∧
    decodeWord 0b0010_0011_0000_0000 = .call 0x300 ∧ decodeWord 0b1011_0101_1111_1111 = .jpV0 0x5FF := by decide
theorem test_decode_skips : decodeWord 0b0011_1010_0000_0101 = .seImm 0xA 0x05 ∧
    decodeWord 0b0100_1010_0000_0101 = .sneImm 0xA 0x05 ∧ decodeWord 0b0101_1010_1011_0000 = .seReg 0xA 0xB ∧
    decodeWord 0b1001_1010_1011_0000 = .sneReg 0xA 0xB := by decide
theorem test_decode_loadAdd : decodeWord 0b0110_1010_0100_0010 = .ldImm 0xA 0x42 ∧
    decodeWord 0b0111_1010_1111_1111 = .addImm 0xA 0xFF := by decide
theorem test_decode_alu : decodeWord 0b1000_1010_1011_0000 = .ldReg 0xA 0xB ∧
    decodeWord 0b1000_1010_1011_0001 = .orReg 0xA 0xB ∧ decodeWord 0b1000_1010_1011_0010 = .andReg 0xA 0xB ∧
    decodeWord 0b1000_1010_1011_0011 = .xorReg 0xA 0xB ∧ decodeWord 0b1000_1010_1011_0100 = .addReg 0xA 0xB ∧
    decodeWord 0b1000_1010_1011_0101 = .sub 0xA 0xB ∧ decodeWord 0b1000_1010_1011_0110 = .shr 0xA 0xB ∧
    decodeWord 0b1000_1010_1011_0111 = .subn 0xA 0xB ∧ decodeWord 0b1000_1010_1011_1110 = .shl 0xA 0xB := by decide
theorem test_decode_indexRandomDraw : decodeWord 0b1010_0001_0010_0011 = .ldI 0x123 ∧
    decodeWord 0b1100_0011_0000_1111 = .rnd 3 0x0F ∧ decodeWord 0b1101_0001_0010_0101 = .drw 1 2 5 := by decide
theorem test_decode_keySkips : decodeWord 0b1110_0100_1001_1110 = .skp 4 ∧
    decodeWord 0b1110_0100_1010_0001 = .sknp 4 := by decide
theorem test_decode_extended : decodeWord 0b1111_0100_0000_0111 = .ldVxDt 4 ∧
    decodeWord 0b1111_0100_0000_1010 = .ldVxK 4 ∧ decodeWord 0b1111_0100_0001_0101 = .ldDtVx 4 ∧
    decodeWord 0b1111_0100_0001_1000 = .ldStVx 4 ∧ decodeWord 0b1111_0100_0001_1110 = .addIVx 4 ∧
    decodeWord 0b1111_0100_0010_1001 = .ldFVx 4 ∧ decodeWord 0b1111_0100_0011_0011 = .ldBVx 4 ∧
    decodeWord 0b1111_0100_0101_0101 = .ldMemVx 4 ∧ decodeWord 0b1111_0100_0110_0101 = .ldVxMem 4 := by decide
theorem test_decode_unmapped :
    decodeWord 0x5AB1 = .unmapped 0x5AB1 ∧ decodeWord 0x9AB1 = .unmapped 0x9AB1 ∧
    decodeWord 0x8008 = .unmapped 0x8008 ∧ decodeWord 0x800D = .unmapped 0x800D ∧
    decodeWord 0x800F = .unmapped 0x800F ∧ decodeWord 0xE1A0 = .unmapped 0xE1A0 ∧
    decodeWord 0xE19F = .unmapped 0xE19F ∧ decodeWord 0xF000 = .unmapped 0xF000 ∧
    decodeWord 0xF130 = .unmapped 0xF130 := by decide

theorem test_decodeBytes_bigEndian : decodeBytes [0x12, 0x34, 0x56] = .ok (.jp 0x234, [0x56]) := by decide
theorem test_decodeBytes_truncated : decodeBytes [0x12] = .error .truncated := by decide
theorem test_decodeTableWord : decodeTableWord 16 0xD125 = some (.drw 1 2 5) := by decide
theorem test_withFetchWord_runs_the_word :
    (next (State.withFetchWord { State.reset with run := .waitingKey 3 } 16 0x6A42)).getV 0xA = 0x42 := by decide

/-! ### One step of each instruction -/

theorem test_V2_1_cls :
    let t := ran 0x00E0 { regs [(vf, 1)] with disp := (Display.clear.setPixel 0 0 true).setPixel 63 31 true }
    t.disp.pixel 0 0 = false ∧ t.disp.pixel 63 31 = false ∧ t.getV vf = 1 ∧ t.pc = 0x202 := by decide
theorem test_V2_6_ret :
    let t := ran 0x00EE { State.reset with sp := 2, stack := (State.reset.stack.set 0 0x300).set 1 0x400 }
    t.pc = 0x400 ∧ t.sp = 1 := by decide
theorem test_V2_4_ret_underflow :
    let t := ran 0x00EE State.reset
    t.run = faultedAt200 .stackUnderflow 0x00EE ∧ t.pc = 0x200 ∧ t.sp = 0 := by decide
theorem test_sys_warns :
    let t := ran 0x0123 State.reset
    t.log = [.warning 0x0123 0x200] ∧ t.pc = 0x202 ∧ t.run = .running := by decide
theorem test_V1_5_reset_runs_the_font : (issued (.step 0) State.reset).log = [.warning 0xF090 0] := by decide
theorem test_V3_1_jp : (ran 0x1234 State.reset).pc = 0x234 := by decide
theorem test_V3_3_call :
    let t := ran 0x2300 State.reset
    t.pc = 0x300 ∧ t.sp = 1 ∧ t.stackAt 0 = 0x202 := by decide
theorem test_V3_4_call_overflow :
    let t := ran 0x2300 { State.reset with sp := 16 }
    t.run = faultedAt200 .stackOverflow 0x2300 ∧ t.pc = 0x200 ∧ t.sp = 16 := by decide
theorem test_V3_8_jpV0 :
    let t := ran 0xBFFF (regs [(0, 0xFF)])
    t.pc = 0x10FE ∧ (issued (.step 0) t).run = .faulted ⟨.memoryOutOfBounds 0x10FE, none, 0x10FE⟩ := by decide
theorem test_V3_9_jpV0_uses_V0 : (ran 0xB300 (regs [(5, 0x40)])).pc = 0x300 := by decide
theorem test_V4_1_seImm : (ran 0x3A05 (regs [(0xA, 5)])).pc = 0x204 ∧ (ran 0x3A05 (regs [(0xA, 6)])).pc = 0x202 := by
  decide
theorem test_V4_3_sneImm : (ran 0x4A05 (regs [(0xA, 5)])).pc = 0x202 ∧ (ran 0x4A05 (regs [(0xA, 6)])).pc = 0x204 := by
  decide
theorem test_V4_5_seReg : (ran 0x5AB0 (regs [(0xA, 7), (0xB, 7)])).pc = 0x204 ∧
    (ran 0x5AB0 (regs [(0xA, 7), (0xB, 8)])).pc = 0x202 := by decide
theorem test_V4_7_sneReg : (ran 0x9AB0 (regs [(0xA, 7), (0xB, 8)])).pc = 0x204 ∧
    (ran 0x9AB0 (regs [(0xA, 7), (0xB, 7)])).pc = 0x202 := by decide
theorem test_V4_11_unmapped :
    let t := ran 0x5AB1 State.reset
    t.log = [.warning 0x5AB1 0x200] ∧ t.pc = 0x202 := by decide
theorem test_V5_1_ldImm : (ran 0x6A42 State.reset).getV 0xA = 0x42 := by decide
theorem test_V5_4_addImm :
    let t := ran 0x7AFF (regs [(0xA, 1), (vf, 0x55)])
    t.getV 0xA = 0 ∧ t.getV vf = 0x55 := by decide
theorem test_V6_1_ldReg :
    let t := ran 0x8AB0 (regs [(0xB, 0x33), (vf, 0x77)])
    t.getV 0xA = 0x33 ∧ t.getV vf = 0x77 := by decide
theorem test_V6_2_orReg :
    let t := ran 0x8AB1 (regs [(0xA, 0xF0), (0xB, 0x0F), (vf, 0x77)])
    t.getV 0xA = 0xFF ∧ t.getV vf = 0x77 := by decide
theorem test_V6_3_andReg : (ran 0x8AB2 (regs [(0xA, 0xF0), (0xB, 0x0F)])).getV 0xA = 0 := by decide
theorem test_V6_4_xorReg : (ran 0x8AB3 (regs [(0xA, 0xFF), (0xB, 0x0F)])).getV 0xA = 0xF0 := by decide
theorem test_S2_addReg :
    let t := ran 0x8014 (regs [(0, 0xFF), (1, 1)])
    t.getV 0 = 0 ∧ t.getV vf = 1 := by decide
theorem test_V6_9_addReg_flag_wins : (ran 0x8F14 (regs [(vf, 0xFF), (1, 1)])).getV vf = 1 := by decide
theorem test_S4_sub_borrow :
    let t := ran 0x8015 (regs [(0, 3), (1, 5)])
    t.getV 0 = 0xFE ∧ t.getV vf = 0 := by decide
theorem test_V6_11_sub_equal :
    let t := ran 0x8015 (regs [(0, 5), (1, 5)])
    t.getV 0 = 0 ∧ t.getV vf = 1 := by decide
theorem test_V6_16_shr_ignores_y :
    let t := ran 0x8566 (regs [(5, 3), (6, 0xFF)])
    t.getV 5 = 1 ∧ t.getV vf = 1 ∧ t.getV 6 = 0xFF := by decide
theorem test_V6_17_shr_flag_wins : (ran 0x8F06 (regs [(vf, 2)])).getV vf = 0 := by decide
theorem test_V6_19_subn :
    let t := ran 0x8017 (regs [(0, 5), (1, 3)])
    t.getV 0 = 0xFE ∧ t.getV vf = 0 := by decide
theorem test_V6_21_subn_equal :
    let t := ran 0x8017 (regs [(0, 0x42), (1, 0x42)])
    t.getV 0 = 0 ∧ t.getV vf = 1 := by decide
theorem test_V6_22_shl :
    let t := ran 0x800E (regs [(0, 0x81)])
    t.getV 0 = 2 ∧ t.getV vf = 1 := by decide
theorem test_V6_24_shl_flag_wins : (ran 0x8FFE (regs [(vf, 0x81)])).getV vf = 1 := by decide
theorem test_V7_2_ldI : (ran 0xAFFF { State.reset with i := 0x1234 }).i = 0x0FFF := by decide
theorem test_V7_4_rnd : (ran 0xC30F State.reset 0xA5).getV 3 = 0x05 := by decide
theorem test_V8_1_drw_glyph0 :
    let t := ran 0xD015 State.reset
    lit t = [(0, 0), (0, 1), (0, 2), (0, 3), (0, 4), (1, 0), (1, 4), (2, 0), (2, 4), (3, 0), (3, 1), (3, 2), (3, 3), (3, 4)]
      ∧ t.getV vf = 0 := by decide
theorem test_V8_7_drw_fault :
    let t := ran 0xD01F { regs [(vf, 7)] with i := 0xFFA }
    t.run = faultedAt200 (.memoryOutOfBounds 0x1000) 0xD01F ∧ t.getV vf = 7 ∧ lit t = [] := by decide
theorem test_V9_1_skp : (ran 0xE19E ((regs [(1, 7)]).setKey 7 true)).pc = 0x204 ∧
    (ran 0xE19E (regs [(1, 7)])).pc = 0x202 := by decide
theorem test_V9_5_skp_fault :
    let t := ran 0xE19E (regs [(1, 0x10)])
    t.run = faultedAt200 (.invalidRegisterOrKeyIndex 0x10) 0xE19E ∧ t.pc = 0x200 := by decide
theorem test_V9_3_sknp : (ran 0xE1A1 ((regs [(1, 7)]).setKey 7 true)).pc = 0x202 ∧
    (ran 0xE1A1 (regs [(1, 7)])).pc = 0x204 := by decide
theorem test_V9_6_sknp_fault :
    (ran 0xE1A1 (regs [(1, 0xFF)])).run = faultedAt200 (.invalidRegisterOrKeyIndex 0xFF) 0xE1A1 := by decide
theorem test_V10_1_ldVxDt : (ran 0xF407 { State.reset with dt := 0x39 }).getV 4 = 0x39 := by decide
theorem test_V10_2_ldDtVx : (ran 0xF315 (regs [(3, 0x3C)])).dt = 0x3C := by decide
theorem test_V10_3_ldStVx : (ran 0xF018 (regs [(0, 2)])).st = 2 := by decide
theorem test_V10_4_ldVxK :
    let t := ran 0xF10A State.reset
    t.run = .waitingKey 1 ∧ t.pc = 0x202 := by decide
theorem test_V10_6_keyInput :
    let w := ran 0xF10A State.reset
    (issued (.keyInput (.char 'q')) w).run = .waitingKey 1 ∧ (issued (.keyInput (.char '7')) w).run = .running ∧
      (issued (.keyInput (.char '7')) w).getV 1 = 7 := by decide
theorem test_V10_11_addIVx :
    let t := ran 0xF21E { regs [(2, 1)] with i := 0xFFFF }
    t.i = 0 ∧ t.getV vf = 0 := by decide
theorem test_V10_15_ldFVx : (ran 0xF029 (regs [(0, 0xFF)])).i = 0x4FB := by decide
theorem test_V10_16_ldBVx :
    let t := ran 0xFA33 { regs [(0xA, 0xFE)] with i := 0x300 }
    bytesAt t 0x300 3 = [2, 5, 4] ∧ t.i = 0x300 := by decide
theorem test_V10_20_ldBVx_fault :
    let s := ran 0xFA33 { State.reset.store 0xFFE [0xAA, 0xBB] with i := 0xFFE }
    s.run = faultedAt200 (.memoryOutOfBounds 0x1000) 0xFA33 ∧ bytesAt s 0xFFE 2 = [0xAA, 0xBB] := by decide
theorem test_V10_21_ldMemVx :
    let t := ran 0xF255 { regs [(0, 1), (1, 2), (2, 3), (3, 9)] with i := 0x400 }
    bytesAt t 0x400 4 = [1, 2, 3, 0] ∧ t.i = 0x400 := by decide
theorem test_ldVxMem :
    let t := ran 0xF165 { (regs [(2, 7)]).store 0x300 [0xAB, 0xCD, 0xEF] with i := 0x300 }
    t.getV 0 = 0xAB ∧ t.getV 1 = 0xCD ∧ t.getV 2 = 7 ∧ t.i = 0x300 := by decide
theorem test_V10_27_ldVxMem_fault :
    let t := ran 0xF165 { regs [(0, 4)] with i := 0xFFF }
    t.run = faultedAt200 (.memoryOutOfBounds 0x1000) 0xF165 ∧ t.getV 0 = 4 := by decide

/-! ### Fetch and the host's transactions -/

theorem test_V1_2_fetch_fault :
    (issued (.step 0) { State.reset with pc := 0xFFF }).run = .faulted ⟨.memoryOutOfBounds 0x1000, none, 0xFFF⟩ := by
  decide
theorem test_V11_2_tick :
    let t := issued .tick { State.reset with dt := 5, st := 1 }
    t.dt = 4 ∧ t.st = 0 ∧ (issued .tick t).st = 0 := by decide
theorem test_S7_setDown_setUp :
    mapKey defaultKeyTable (.char 'a') = some 0xA ∧ (issued (.setDown 0xA) State.reset).keys[(0xA : Key)] = true ∧
      (issued (.setUp 0xA) (issued (.setDown 0xA) State.reset)).keys[(0xA : Key)] = false ∧
      hostResult (.setDown 16 : HostTransaction) State.reset = .error .invalidRegisterOrKeyIndex 16 := by decide
theorem test_V11_5_skip :
    let t := issued .skip (ran 0x00EE State.reset)
    t.pc = 0x202 ∧ t.run = .running ∧ t.log = [.fault ⟨.stackUnderflow, some 0x00EE, 0x200⟩] := by decide
theorem test_V11_8_reset :
    let t := issued .reset { regs [(3, 0x44)] with pc := 0x210, log := [.warning 0x0123 0x20E] }
    t.pc = 0 ∧ t.getV 3 = 0 ∧ t.log = [.warning 0x0123 0x20E] := by decide
theorem test_V11_9_first_match_wins :
    mapKey ((defaultKeyTable.set 2 (.char 'x')).set 9 (.char 'x')) (.char 'x') = some 2 := by decide
theorem test_V11_13_load :
    let t := issued (.load [0x12, 0x00]) (regs [(0, 0x55)])
    bytesAt t 0x200 2 = [0x12, 0x00] ∧ t.pc = 0x200 ∧ t.getV 0 = 0x55 := by decide

/-! ### Other parameters (R6, R7, R40): the same step -/

/-- A key table whose host keys are the numbers 100 to 115. -/
def numbered : Vector Nat 16 := #v[100, 101, 102, 103, 104, 105, 106, 107, 108, 109, 110, 111, 112, 113, 114, 115]

/-- A font whose glyphs 1 to F are each a rule under the top row. -/
def ruledFont : Config.Font := Vector.replicate 15 #v[0x0, 0xF, 0x0, 0x0, 0x0]

/-- A machine with a call stack of one entry, the numbered keys and the ruled font. -/
def numberedParams : Config.Params := ⟨1, #v[.other 0, .other 1, .other 2, .other 3, .other 4, .other 5, .other 6, .other 7, .other 8,
  .other 9, .other 10, .other 11, .other 12, .other 13, .other 14, .other 15], ruledFont⟩

theorem test_numbered_keys_are_named : numberedParams.keyTable = numbered.map (keyName numbered) := by
  rw [← Vector.toList_inj, Vector.toList_map]
  decide
theorem test_core_has_the_standard_parameters : machineWith standardParams = core := rfl
theorem test_call_overflows_at_the_depth :
    let s := State.resetWith numberedParams
    let t := ran 0x2300 s
    t.pc = 0x300 ∧ t.sp = 1 ∧ (ran 0x2300 t).run = faultedAt200 .stackOverflow 0x2300 := by decide
theorem test_R40_font_is_loaded_at_reset :
    bytesAt (State.resetWith numberedParams) 0 12 =
      [0xF0, 0x90, 0x90, 0x90, 0xF0, 0x00, 0xF0, 0x00, 0x00, 0x00, 0x00, 0xF0] ∧
    bytesAt State.reset 50 5 = [0xF0, 0x90, 0xF0, 0x90, 0x90] := by decide
theorem test_draw_of_another_font :
    let t := ran 0xD015 { State.resetWith numberedParams with i := 0x005 }
    lit t = [(0, 1), (1, 1), (2, 1), (3, 1)] := by decide
theorem test_reset_reloads_the_font :
    let t := (State.resetWith numberedParams).store 0x004 [0x12, 0x34, 0x56]
    bytesAt t 3 4 = [0x90, 0x12, 0x34, 0x56] ∧ bytesAt (issued .reset t) 3 4 = [0x90, 0xF0, 0x00, 0xF0] := by decide
theorem test_keyInput_of_numbered_keys :
    let s := { State.resetWith numberedParams with run := .waitingKey 3 }
    (issued (Transaction.map (keyName numbered) (.keyInput 109)) s).getV 3 = 9 ∧
      (issued (Transaction.map (keyName numbered) (.keyInput 116)) s).run = .waitingKey 3 ∧
      (issued (.keyInput (.char '9')) s).run = .waitingKey 3 := by decide

/-! ### Witnesses: a state and operands that meet the hypotheses of each statement, for each of its clauses -/

/-- The next state of an execute phase, or s itself where there is none. -/
def execNext (i : Instr) (s : State) : State :=
  match exec i s with
  | .next t => t
  | .fault _ => s
  | .refused _ => s

/-- The execute phase of i, from the state before the step, answers a state that is not Faulted. -/
def completes (i : Instr) (s : State) : Bool :=
  match exec i { s with pc := s.pc + 2 } with
  | .next t => match t.run with
    | .running => true
    | .waitingKey _ => true
    | .faulted _ => false
  | .fault _ => false
  | .refused _ => false

/-- The reset state with I = a. -/
def indexed (a : Word) : State := { State.reset with i := a }

/-- The reset state in a run state, with one transaction scheduled. -/
def scheduled (r : RunState) (tr : HostTransaction) : State := { State.reset with run := r, inputs := [tr] }

/-- A record of a fault that stops the core. -/
def stopped : FaultRecord := ⟨.stackUnderflow, some 0x00EE, 0x200⟩

theorem witness_DecodeOfEncodeIsTheInstruction : WellFormed (.drw 1 2 15) = true ∧ WellFormed (.sys 0xFFF) = true ∧
    WellFormed (.unmapped 0x5AB1) = true := by decide
theorem witness_UnmappedWordsAreThoseListed :
    isUnmapped 0x0000 ∧ isUnmapped 0x5AB1 ∧ isUnmapped 0x9ABF ∧ isUnmapped 0x8008 ∧ isUnmapped 0x800F ∧
      isUnmapped 0xE000 ∧ isUnmapped 0xFFFF :=
  ⟨.inl ⟨0, rfl⟩, .inr ⟨_, rfl⟩, .inr ⟨_, rfl⟩, .inr ⟨_, rfl⟩, .inr ⟨_, rfl⟩, .inr ⟨_, rfl⟩, .inr ⟨_, rfl⟩⟩
theorem witness_StepRunsTheDecodedInstruction_scheduled :
    let s := { scheduled .running (.step 7) with pc := 0xFFE }
    s.run = .running ∧ s.pc.toNat + 1 ≤ 0xFFF ∧
      decodeBytes [s.byteAt s.pc.toNat, s.byteAt (s.pc.toNat + 1)] = .ok (.sys 0, []) ∧ s.inputs = [.step 7] := by decide
theorem witness_StepRunsTheDecodedInstruction_unscheduled :
    let s := State.withFetchWord State.reset 16 0xC30F
    s.run = .running ∧ s.pc.toNat + 1 ≤ 0xFFF ∧
      decodeBytes [s.byteAt s.pc.toNat, s.byteAt (s.pc.toNat + 1)] = .ok (.rnd 3 0x0F, []) ∧ s.inputs = [] := by decide
theorem witness_FetchReadsTheWordAtPc :
    (0xFFE#16).toNat + 1 ≤ 0xFFF ∧ 0xFFF < (0x1000#16).toNat ∧ (0xFFF#16).toNat = 0xFFF ∧
      (scheduled .running (.step 0)).run = .running ∧
      fetch { scheduled .running (.step 0) with pc := 0xFFF } = .error (.memoryOutOfBounds 0x1000) :=
  ⟨by decide, by decide, by decide, rfl, rfl⟩
theorem witness_FaultLeavesTheStateBeforeTheStep_execute :
    let s := before 0x00EE State.reset
    s.run = .running ∧ s.inputs = [.step 0] ∧ step s = .next (next s) ∧
      (next s).run = .faulted ⟨.stackUnderflow, some 0x00EE, 0x200⟩ ∧ fetch s = .ok 0x00EE := ⟨rfl, rfl, rfl, rfl, rfl⟩
theorem witness_FaultLeavesTheStateBeforeTheStep_fetch :
    let s := { scheduled .running (.step 0) with pc := 0x1000 }
    s.run = .running ∧ s.inputs = [.step 0] ∧ step s = .next (next s) ∧
      (next s).run = .faulted ⟨.memoryOutOfBounds 0x1000, none, 0x1000⟩ ∧
      fetch s = .error (.memoryOutOfBounds 0x1000) := ⟨rfl, rfl, rfl, rfl, rfl⟩
theorem witness_PcAfterEachInstruction_faulted :
    let s := State.reset
    s.run = .running ∧ exec .ret { s with pc := s.pc + 2 } = .next (execNext .ret { s with pc := s.pc + 2 }) ∧
      (execNext .ret { s with pc := s.pc + 2 }).run = .faulted ⟨.stackUnderflow, some 0x00EE, 0⟩ := ⟨rfl, rfl, rfl⟩
theorem witness_PcAfterEachInstruction_not_faulted :
    completes .ret { State.reset with sp := 16 } = true ∧ completes (.jp 0xFFF) State.reset = true ∧
    completes (.call 0) { State.reset with sp := 15 } = true ∧ completes (.jpV0 0xFFF) (regs [(0, 0xFF)]) = true ∧
    completes (.seImm 1 0) State.reset = true ∧ completes (.sneImm 1 1) State.reset = true ∧
    completes (.seReg 1 2) State.reset = true ∧ completes (.sneReg 1 2) State.reset = true ∧
    completes (.skp 1) (regs [(1, 15)]) = true ∧ completes (.sknp 1) (regs [(1, 15)]) = true ∧
    completes (.ldVxK 1) State.reset = true ∧ completes (.ldBVx 1) (indexed 0xFFD) = true := by decide
theorem witness_EveryStepKeepsTheInvariant :
    State.reset.Inv ∧
      step { State.reset with inputs := [.step 0] } = .next (next { State.reset with inputs := [.step 0] }) :=
  ⟨⟨by decide, ⟨by decide, by decide⟩, nofun, nofun⟩, rfl⟩
theorem witness_EveryStepKeepsTheInvariant_faulted :
    let s : State := { State.reset with run := .faulted stopped, log := [.fault stopped], inputs := [.skip] }
    s.Inv ∧ step s = .next (next s) := by
  refine ⟨⟨by decide, ⟨by decide, by decide⟩, ?_, ?_⟩, rfl⟩
  · intro record h
    cases h
    exact List.mem_singleton.mpr rfl
  · intro r h
    cases List.mem_singleton.mp h
    exact (rfl : decodeWord 0x00EE = .ret)
theorem witness_LogGrowsByAtMostOneReport :
    let s := before 0x0123 State.reset
    step s = .next (next s) ∧ (next s).log = [.warning 0x0123 0x200] := ⟨rfl, rfl⟩
theorem witness_KeyWaitEndsOnlyByMappedKeyOrReset :
    let s := scheduled (.waitingKey 3) (.keyInput (.char 'f'))
    let r := scheduled (.waitingKey 3) .reset
    (s.run = .waitingKey 3 ∧ step s = .next (next s) ∧ (next s).run ≠ .waitingKey 3) ∧
      (r.run = .waitingKey 3 ∧ step r = .next (next r) ∧ (next r).run ≠ .waitingKey 3) :=
  ⟨⟨rfl, rfl, by decide⟩, ⟨rfl, rfl, by decide⟩⟩
theorem witness_FaultedEndsOnlyBySkipOrReset :
    let s := scheduled (.faulted stopped) .skip
    let r := scheduled (.faulted stopped) .reset
    (s.run = .faulted stopped ∧ step s = .next (next s) ∧ (next s).run ≠ .faulted stopped) ∧
      (r.run = .faulted stopped ∧ step r = .next (next r) ∧ (next r).run ≠ .faulted stopped) :=
  ⟨⟨rfl, rfl, by decide⟩, ⟨rfl, rfl, by decide⟩⟩
theorem witness_DisabledTransactionsHaveNoEffect :
    (scheduled .running .skip).inputs = [.skip] ∧ enabled (.skip : HostTransaction) .running = false ∧
      (scheduled (.waitingKey 1) (.step 0)).inputs = [.step 0] ∧
      enabled (.step 0 : HostTransaction) (.waitingKey 1) = false ∧
      { State.reset with run := .waitingKey 1 }.inputs = [] ∧
      { State.reset with run := .waitingKey 1 }.run ≠ .running := by decide
theorem witness_SelfJumpRunsForEver :
    let s := State.withFetchWord { State.reset with pc := 0x200 } 16 0x1200
    let u := before 0x1200 State.reset 7
    (s.haltLoop ∧ s.inputs = []) ∧ (u.haltLoop ∧ u.inputs = [.step 7]) :=
  ⟨⟨⟨rfl, 0x200, rfl, rfl⟩, rfl⟩, ⟨⟨rfl, 0x200, rfl, rfl⟩, rfl⟩⟩
theorem witness_StackChangesOnlyByCallRetReset :
    let s := before 0x2300 State.reset
    step s = .next (next s) ∧ (next s).sp ≠ s.sp := ⟨rfl, by decide⟩
theorem witness_IndexAndTimersChangeOnlyByTheirWriters :
    let s := before 0xA123 State.reset
    let d := before 0xF315 (regs [(3, 0x3C)])
    let u := scheduled .running .tick |>.setSt 5
    (step s = .next (next s) ∧ (next s).i ≠ s.i) ∧ (step d = .next (next d) ∧ d.dt.toNat < (next d).dt.toNat) ∧
      (step u = .next (next u) ∧ (next u).st ≠ u.st) :=
  ⟨⟨rfl, by decide⟩, ⟨rfl, by decide⟩, ⟨rfl, by decide⟩⟩
theorem witness_MemoryDisplayKeysChangeOnlyByTheirWriters :
    let s := before 0xFA33 { regs [(0xA, 0xFE)] with i := 0x300 }
    let d := before 0xD015 State.reset
    let k := scheduled .running (.setDown 15)
    (step s = .next (next s) ∧ (next s).byteAt 0x300 ≠ s.byteAt 0x300) ∧
      (step d = .next (next d) ∧ (next d).disp.pixel 0 0 ≠ d.disp.pixel 0 0) ∧
      (step k = .next (next k) ∧ (next k).keys ≠ k.keys) :=
  ⟨⟨rfl, by decide⟩, ⟨rfl, by decide⟩, ⟨rfl, by decide⟩⟩
theorem witness_RetPopsTheReturnAddress :
    { State.reset with sp := 16 }.sp = 15 + 1 ∧ { State.reset with sp := 1 }.sp = 0 + 1 ∧
      State.reset.sp = 0 := by decide
theorem witness_RetPopsTheReturnAddress_next_fetch :
    let s : State := { State.reset with sp := 1, stack := State.reset.stack.set 0 0xFFF }
    s.sp = 0 + 1 ∧ exec .ret s = .next (execNext .ret s) ∧ 0xFFE < (execNext .ret s).pc.toNat :=
  ⟨rfl, rfl, by decide⟩
theorem witness_JpSetsPc : (0xFFF : BitVec 12) = 0xFFF ∧
    (0x200 : BitVec 12).toNat = ({ State.reset with pc := 0x202 }.pc - 2).toNat := by decide
theorem witness_JpV0AddsV0 :
    exec (.jpV0 0xFFF) (regs [(0, 0xFF)]) = .next (execNext (.jpV0 0xFFF) (regs [(0, 0xFF)])) ∧
      0xFFE < (execNext (.jpV0 0xFFF) (regs [(0, 0xFF)])).pc.toNat := ⟨rfl, by decide⟩
theorem witness_CallPushesTheReturnAddress :
    let s := { State.reset with sp := 15 }
    let u := { State.reset with sp := 16 }
    (s.sp < s.params.stackDepth ∧ s.stackWf) ∧ u.sp = u.params.stackDepth :=
  ⟨⟨by decide, by decide, by decide⟩, rfl⟩
theorem witness_RetAfterCallReturns :
    let s := { State.reset with sp := 15 }
    let t := execNext (.call 0x300) s
    let m := t.setPc 0x302
    s.stackWf ∧ s.sp < s.params.stackDepth ∧ exec (.call 0x300) s = .next t ∧ m.sp = t.sp ∧ m.stack = t.stack :=
  ⟨⟨by decide, by decide⟩, by decide, rfl, rfl, rfl⟩
theorem witness_SkipsOnARegister : (1 : BitVec 4) ≠ 0 ∧ (15 : BitVec 4) ≠ 0 := by decide
theorem witness_destination_is_not_VF : (0 : Reg) ≠ vf ∧ (14 : Reg) ≠ vf := by decide
theorem witness_RndMasksTheInjectedByte :
    let s := before 0xC30F State.reset 0xA5
    s.run = .running ∧ s.inputs = [.step 0xA5] ∧ fetch s = .ok (formatXK 0xC 3 0x0F) := ⟨rfl, rfl, rfl⟩
theorem witness_DrwInvertsThePixelsItCovers_rows :
    (∀ r < (6 : Fin 16).val, (indexed 0xFFA).effAddr r ≤ 0xFFF) ∧
      (∀ r < (0 : Fin 16).val, (indexed 0xFFFF).effAddr r ≤ 0xFFF) := by decide
theorem witness_DrwInvertsThePixelsItCovers_pixels :
    (spriteCovers State.reset 0 1 5 0 0 ∧ State.reset.disp.pixel 0 0 = false) ∧
      (spriteCovers (State.reset.setDisp (Display.clear.setPixel 0 0 true)) 0 1 5 0 0 ∧
        (State.reset.setDisp (Display.clear.setPixel 0 0 true)).disp.pixel 0 0 = true) :=
  ⟨⟨⟨0, 0, by decide, by decide, by decide, by decide, by decide⟩, by decide⟩,
    ⟨⟨0, 0, by decide, by decide, by decide, by decide, by decide⟩, by decide⟩⟩
theorem witness_DrwInvertsThePixelsItCovers_no_pixel : ¬ spriteCovers State.reset 0 1 0 5 5 :=
  fun ⟨_, _, h, _⟩ => absurd h (Nat.not_lt_zero _)
theorem witness_DrwInvertsThePixelsItCovers_fault :
    6 < (15 : Fin 16).val ∧ 0xFFF < (indexed 0xFFA).effAddr 6 ∧ (∀ k < 6, (indexed 0xFFA).effAddr k ≤ 0xFFF) := by decide
theorem witness_DrawingTwiceRestoresTheDisplay :
    (0 : Reg) ≠ vf ∧ (1 : Reg) ≠ vf ∧ (∀ r < (5 : Fin 16).val, State.reset.effAddr r ≤ 0xFFF) := by decide
theorem witness_KeySkipsReadTheKeyFlag :
    ((regs [(1, 15)]).getV 1).toNat = (15 : Key).val ∧ 0x0F < ((regs [(1, 16)]).getV 1).toNat := by decide
theorem witness_KeyReadWaitsForAMappedKey :
    let s := scheduled (.waitingKey 3) (.keyInput (.char 'f'))
    let u := scheduled (.waitingKey 3) (.keyInput (.char 'q'))
    (s.run = .waitingKey 3 ∧ s.inputs = [.keyInput (.char 'f')] ∧ mapKey s.params.keyTable (.char 'f') = some 15) ∧
      (u.run = .waitingKey 3 ∧ u.inputs = [.keyInput (.char 'q')] ∧ mapKey u.params.keyTable (.char 'q') = none) := by decide
theorem witness_KeyInputCompletesTheWait :
    let s := scheduled (.waitingKey 3) (.keyInput (.char 'f'))
    s.run = .waitingKey 3 ∧ s.inputs = [.keyInput (.char 'f')] ∧
      (defaultKeyTable[(15 : Key)] = .char 'f' ∧ ∀ j : Key, j < 15 → defaultKeyTable[j] ≠ .char 'f') ∧
      (∀ k : Key, defaultKeyTable[k] ≠ .char 'q') :=
  ⟨rfl, rfl, by decide, by decide⟩
theorem witness_AnyHostKeyTypeRunsByStep :
    let s := { scheduled (.waitingKey 3) (Transaction.map (keyName numbered) (.keyInput 109)) with
      params := numberedParams }
    s.params.keyTable = numbered.map (keyName numbered) ∧
      s.inputs = [Transaction.map (keyName numbered) (.keyInput 109)] :=
  ⟨test_numbered_keys_are_named, rfl⟩
theorem witness_TickDecrementsToZero : (scheduled (.waitingKey 4) .tick).inputs = [.tick] := by decide
theorem witness_KeyFlagsAreSetAndCleared :
    ((.setDown 15 : HostTransaction) = if true then .setDown 15 else .setUp 15) ∧
      (scheduled .running (.setDown 15)).inputs = [.setDown 15] ∧ (15 : Nat) = (15 : Key).val ∧
      ((.setUp 16 : HostTransaction) = if false then .setDown 16 else .setUp 16) ∧
      (scheduled .running (.setUp 16)).inputs = [.setUp 16] ∧ 15 < 16 := by decide
theorem witness_LdBStoresTheDigits : ((indexed 0xFFD).memWf ∧ (indexed 0xFFD).effAddr 2 ≤ 0xFFF) ∧
    (2 ≤ 2 ∧ 0xFFF < (indexed 0xFFE).effAddr 2 ∧ (∀ k < 2, (indexed 0xFFE).effAddr k ≤ 0xFFF)) := by decide
theorem witness_LdMemStoresTheRegisters :
    ((indexed 0xFF0).memWf ∧ (indexed 0xFF0).effAddr (15 : Reg).val ≤ 0xFFF) ∧
      (15 ≤ (15 : Reg).val ∧ 0xFFF < (indexed 0xFF1).effAddr 15 ∧ (∀ k < 15, (indexed 0xFF1).effAddr k ≤ 0xFFF)) := by
  decide
theorem witness_LdVxMemLoadsTheRegisters :
    ((indexed 0xFF0).effAddr (15 : Reg).val ≤ 0xFFF ∧ (indexed 0xFFF).effAddr (0 : Reg).val ≤ 0xFFF) ∧
      (0 ≤ (15 : Reg).val ∧ 0xFFF < (indexed 0xFFFF).effAddr 0 ∧ (∀ k < 0, (indexed 0xFFFF).effAddr k ≤ 0xFFF)) := by
  decide
theorem witness_OutOfBoundsFaultsAtTheLowestAddress_fault :
    accessCount (.ldBVx 1) = some 3 ∧ 2 < 3 ∧ 0xFFF < (indexed 0xFFE).effAddr 2 ∧
      (∀ k < 2, (indexed 0xFFE).effAddr k ≤ 0xFFF) := by decide
theorem witness_OutOfBoundsFaultsAtTheLowestAddress_none :
    accessCount (.drw 1 2 6) = some 6 ∧ (∀ j < 6, (indexed 0xFFA).effAddr j ≤ 0xFFF) := by decide
theorem witness_StoreThenLoadRestoresTheRegisters :
    let s := { regs [(0, 4), (1, 0x55)] with i := 0x400 }
    let t := execNext (.ldMemVx 1) s
    let m := t.setV 0 0
    s.memWf ∧ s.effAddr (1 : Reg).val ≤ 0xFFF ∧ exec (.ldMemVx 1) s = .next t ∧
      (∀ a, m.byteAt a = t.byteAt a) ∧ m.i = t.i :=
  ⟨by decide, by decide, rfl, fun _ => rfl, rfl⟩
theorem witness_UnmappedWordOnlyWarns :
    (∃ nnn, Instr.sys 0x123 = .sys nnn) ∧ (∃ w, Instr.unmapped 0x5AB1 = .unmapped w) := ⟨⟨_, rfl⟩, ⟨_, rfl⟩⟩
theorem witness_SkipPassesTheFaultingOpcode :
    (scheduled (.faulted stopped) .skip).run = .faulted stopped ∧
      (scheduled (.faulted stopped) .skip).inputs = [.skip] := by decide
theorem witness_LoadCopiesTheProgram_refused :
    (scheduled .running (.load (List.replicate 3584 1))).inputs = [.load (List.replicate 3584 1)] ∧
      4096 ≤ (List.replicate 3584 (1 : Byte)).length + 0x200 :=
  ⟨rfl, by rw [List.length_replicate]⟩
theorem witness_LoadCopiesTheProgram_accepted :
    (scheduled .running (.load (List.replicate 3583 1))).inputs = [.load (List.replicate 3583 1)] ∧
      (List.replicate 3583 (1 : Byte)).length + 0x200 < 4096 ∧
      (scheduled .running (.load (List.replicate 3583 1))).memWf :=
  ⟨rfl, by rw [List.length_replicate]; decide, by decide⟩
theorem witness_ResetReinitialisesAndKeepsTheLog :
    (scheduled (.faulted stopped) .reset).inputs = [.reset] := by decide
theorem witness_ReadReturnsTheComponent : (scheduled .running (.read .pc)).inputs = [.read .pc] := by decide

end Sys2Proof.Tests
end

section
/-! PROOF. A host with host keys of any type runs by `step` (R7, R121, R122): a transaction under the names `keyName`
gives has the effect and the result it has under the host's own keys. The one transaction that carries a host key is
KeyInput, and its lookup does not change under the names (`mapKey_keyName`). -/

namespace Sys2Proof.Machine

/-- The head of the schedule is issued once it is off the schedule, enabled or not (R113). -/
theorem step_scheduled {s : State} {tr : HostTransaction} {rest : List HostTransaction} (hin : s.inputs = tr :: rest) :
    step s = transact s.params.keyTable tr { s with inputs := rest } := by
  unfold step
  rw [hin]

theorem keyInput_keyName {κ : Type} [DecidableEq κ] (table : Vector κ 16) (h : κ) (s : State) :
    keyInput (table.map (keyName table)) (keyName table h) s = keyInput table h s := by
  simp only [keyInput, mapKey_keyName]

theorem applyTransaction_keyName {κ : Type} [DecidableEq κ] (table : Vector κ 16) (tr : Transaction κ) (s : State) :
    applyTransaction (table.map (keyName table)) (tr.map (keyName table)) s = applyTransaction table tr s := by
  cases tr with
  | keyInput h => exact congrArg Host.Outcome.next (keyInput_keyName table h s)
  | _ => rfl

theorem transact_keyName {κ : Type} [DecidableEq κ] (table : Vector κ 16) (tr : Transaction κ) (s : State) :
    transact (table.map (keyName table)) (tr.map (keyName table)) s = transact table tr s := by
  simp only [transact, enabled_map, applyTransaction_keyName]

/-- No result depends on which host key a transaction carries. -/
theorem hostResult_map {κ κ' : Type} (f : κ → κ') (tr : Transaction κ) (s : State) :
    hostResult (tr.map f) s = hostResult tr s := by
  simp only [hostResult, enabled_map]
  cases tr <;> rfl

/-- Settles O46: the names keep the lookup of KeyInput, the enabledness and the result of every transaction
(notes/assumptions/6.md). -/
theorem anyHostKeyTypeRunsByStep : Obligations.AnyHostKeyTypeRunsByStep := by
  intro κ _ table tr s rest htable hin
  refine ⟨?_, hostResult_map (keyName table) tr s⟩
  rw [step_scheduled hin, htable, transact_keyName]

end Sys2Proof.Machine
end

section
/-! PROOF. How each instruction leaves PC (R16, R54, R66). A fault puts PC back (R104); without one the pseudocode's own
state stands (`conclude_notFaulted`), and PC is read off it. In each lemma the instruction runs from `s.advance`. -/

namespace Sys2Proof.Machine

/-! ### A fault, and its absence -/

/-- An execute phase that leaves a Running core Faulted took a fault, which puts PC back to P (R104). -/
theorem exec_faulted_pc {i : Instr} {s t : State} {record : FaultRecord} (hrun : s.run = .running)
    (h : exec i s.advance = .next t) (hf : t.run = .faulted record) : t.pc = s.pc := by
  cases exec_cases h with
  | fault f may e => rw [e, takeFault_pc, undoAdvance_advance]
  | warning hi e => simp [e, reportUnmapped_eq, hrun] at hf
  | ordinary o =>
    obtain ho | ⟨x, -, ho⟩ := o.run
    · rw [ho, advance_run, hrun] at hf
      cases hf
    · rw [ho] at hf
      cases hf

/-- An execute phase that does not leave the core Faulted ends in the state its pseudocode answers. -/
theorem conclude_notFaulted {w : Word} {s t : State} {r : Except Fault State} (h : conclude w s r = .next t)
    (hn : ∀ record, t.run ≠ .faulted record) : r = .ok t := by
  cases r with
  | error f =>
    cases h
    exact absurd rfl (hn _)
  | ok u =>
    cases h
    rfl

/-! ### Skips -/

/-- A skip whose condition is P leaves P + 4 or P + 2 (R66). -/
theorem skipIf_advance_pc {s : State} {c : Bool} {P : Prop} [Decidable P] (h : c = true ↔ P) :
    (s.advance.skipIf c).pc = if P then s.pc + 4 else s.pc + 2 := by
  rw [skipIf_pc, advance_pc, BitVec.add_assoc]
  exact ite_congr (propext h) (fun _ => rfl) (fun _ => rfl)

theorem execSkp_pc {x : Reg} {s t : State} (h : execSkp x s.advance = .next t)
    (hn : ∀ record, t.run ≠ .faulted record) :
    ∃ k : Key, (s.getV x).toNat = k.val ∧ t.pc = if s.keys[k] then s.pc + 4 else s.pc + 2 := by
  have hok := conclude_notFaulted h hn
  by_cases hk : (s.advance.getV x).toNat < 16
  · rw [keyOperand_ok hk] at hok
    cases hok
    exact ⟨⟨_, hk⟩, rfl, skipIf_advance_pc Iff.rfl⟩
  · rw [keyOperand_error hk] at hok
    cases hok

theorem execSknp_pc {x : Reg} {s t : State} (h : execSknp x s.advance = .next t)
    (hn : ∀ record, t.run ≠ .faulted record) :
    ∃ k : Key, (s.getV x).toNat = k.val ∧ t.pc = if s.keys[k] then s.pc + 2 else s.pc + 4 := by
  have hok := conclude_notFaulted h hn
  by_cases hk : (s.advance.getV x).toNat < 16
  · rw [keyOperand_ok hk] at hok
    cases hok
    have hc : (!s.keys[(s.getV x).toNat]) = true ↔ ¬ s.keys[(s.getV x).toNat] = true := by simp
    exact ⟨⟨_, hk⟩, rfl, (skipIf_advance_pc hc).trans (ite_not ..)⟩
  · rw [keyOperand_error hk] at hok
    cases hok

/-! ### Jumps and the call stack -/

theorem zextNNN_toNat (nnn : BitVec 12) : (zextNNN nnn).toNat = nnn.toNat :=
  BitVec.toNat_setWidth_of_le (by decide)

/-- The sum of Bnnn does not wrap: it is at most 0xFFF + 0xFF (R65). -/
theorem zextNNN_add_zextByte_toNat (nnn : BitVec 12) (b : Byte) :
    (zextNNN nnn + zextByte b).toNat = nnn.toNat + b.toNat := by
  have hb : (zextByte b).toNat = b.toNat := BitVec.toNat_setWidth_of_le (by decide)
  rw [BitVec.toNat_add, zextNNN_toNat, hb]
  omega

theorem execRet_pc {s t : State} (h : execRet s.advance = .next t) (hn : ∀ record, t.run ≠ .faulted record) :
    ∃ k : Nat, s.sp = k + 1 ∧ t.pc = s.stackAt k := by
  have hok := conclude_notFaulted h hn
  by_cases h0 : s.advance.sp = 0
  · rw [pop_error h0] at hok
    cases hok
  · rw [pop_ok h0] at hok
    cases hok
    exact ⟨s.sp - 1, (Nat.succ_pred h0).symm, rfl⟩

theorem execCall_pc {nnn : BitVec 12} {s t : State} (h : execCall nnn s.advance = .next t)
    (hn : ∀ record, t.run ≠ .faulted record) :
    t.pc.toNat = nnn.toNat ∧ s.sp < s.params.stackDepth ∧ t.stack = s.stack.set s.sp (s.pc + 2) := by
  have hok := conclude_notFaulted h hn
  by_cases hd : s.advance.sp < s.advance.params.stackDepth
  · rw [push_ok hd] at hok
    cases hok
    exact ⟨zextNNN_toNat nnn, hd, rfl⟩
  · rw [push_error (Nat.le_of_not_lt hd)] at hok
    cases hok

/-! ### The instructions that access memory -/

theorem writeBlock_pc {s t : State} {base : Nat} {bytes : List Byte} (h : writeBlock s base bytes = .ok t) :
    t.pc = s.pc := by
  by_cases hb : bytes.length = 0 ∨ base + bytes.length ≤ memSize
  · rw [writeBlock_ok hb] at h
    cases h
    rfl
  · rw [writeBlock_error hb] at h
    cases h

theorem execDrw_pc {x y : Reg} {n : Fin 16} {s t : State} (h : execDrw x y n s = .next t)
    (hn : ∀ record, t.run ≠ .faulted record) : t.pc = s.pc := by
  have hok := conclude_notFaulted h hn
  cases hr : readBlock s (s.effAddr 0) n.val with
  | error f => rw [hr] at hok; cases hok
  | ok rows => rw [hr] at hok; cases hok; rfl

theorem execLdVxMem_pc {x : Reg} {s t : State} (h : execLdVxMem x s = .next t)
    (hn : ∀ record, t.run ≠ .faulted record) : t.pc = s.pc := by
  have hok := conclude_notFaulted h hn
  cases hr : readBlock s (s.effAddr 0) (x.val + 1) with
  | error f => rw [hr] at hok; cases hok
  | ok bytes => rw [hr] at hok; cases hok; rfl

/-! ### Every instruction -/

/-- Settles O9: by the instruction; those with no case of their own end at P + 2, where the advance left PC. -/
theorem pcAfterEachInstruction : Obligations.PcAfterEachInstruction := by
  intro i s t hrun h
  refine ⟨fun record hf => exec_faulted_pc hrun h hf, fun hn => ?_⟩
  cases i with
  | ret => exact execRet_pc h hn
  | jp nnn => cases h; exact zextNNN_toNat nnn
  | call nnn => exact execCall_pc h hn
  | jpV0 nnn => cases h; exact zextNNN_add_zextByte_toNat nnn _
  | seImm x kk => cases h; exact skipIf_advance_pc beq_iff_eq
  | sneImm x kk => cases h; exact skipIf_advance_pc bne_iff_ne
  | seReg x y => cases h; exact skipIf_advance_pc beq_iff_eq
  | sneReg x y => cases h; exact skipIf_advance_pc bne_iff_ne
  | skp x => exact execSkp_pc h hn
  | sknp x => exact execSknp_pc h hn
  | ldVxK x => cases h; exact ⟨rfl, rfl⟩
  | drw x y n => exact execDrw_pc h hn
  | ldBVx x => exact writeBlock_pc (conclude_notFaulted h hn)
  | ldMemVx x => exact writeBlock_pc (conclude_notFaulted h hn)
  | ldVxMem x => exact execLdVxMem_pc h hn
  | _ => cases h; rfl

end Sys2Proof.Machine
end

section
/-! PROOF. What one action writes of the report log, the call stack, I and the timers (R13, R18, R26, R118), said once
for every action in `step_frame`; the statements about these components are read off it. -/

namespace Sys2Proof.Machine

/-- For each of these components, that an action leaves it unchanged, or which actions write it, and what Tick and Reset
make of the timers. -/
structure StepFrame (s t : State) : Prop where
  log : t.log = s.log ∨ ∃ r, t.log = s.log ++ [r]
  stack : (t.sp = s.sp ∧ t.stack = s.stack) ∨
    runsNext s .ret ∨ (∃ nnn, runsNext s (.call nnn)) ∨ hostNext s .reset
  index : t.i = s.i ∨
    (∃ nnn, runsNext s (.ldI nnn)) ∨ (∃ x, runsNext s (.addIVx x)) ∨ (∃ x, runsNext s (.ldFVx x)) ∨ hostNext s .reset
  dt : t.dt = s.dt ∨ (∃ x, runsNext s (.ldDtVx x)) ∨
    (hostNext s .tick ∧ t.dt = tickTimer s.dt) ∨ (hostNext s .reset ∧ t.dt = 0)
  st : t.st = s.st ∨ (∃ x, runsNext s (.ldStVx x)) ∨ hostNext s .tick ∨ hostNext s .reset

/-- An action that writes none of these components but the log. -/
theorem StepFrame.of_log {s t : State} (log : t.log = s.log ∨ ∃ r, t.log = s.log ++ [r]) (sp : t.sp = s.sp)
    (stack : t.stack = s.stack) (index : t.i = s.i) (dt : t.dt = s.dt) (st : t.st = s.st) : StepFrame s t :=
  ⟨log, .inl ⟨sp, stack⟩, .inl index, .inl dt, .inl st⟩

/-- The model's own fields are none of these components. -/
theorem StepFrame.of_latched {s S t : State} (same : latched s S) (log : t.log = S.log ∨ ∃ r, t.log = S.log ++ [r])
    (sp : t.sp = S.sp) (stack : t.stack = S.stack) (index : t.i = S.i) (dt : t.dt = S.dt) (st : t.st = S.st) :
    StepFrame s t := by
  rw [same] at log sp stack index dt st
  exact .of_log log sp stack index dt st

theorem exists_runsNext {α : Type} {s : State} {i : Instr} {f : α → Instr} (next : runsNext s i) :
    (∃ a, i = f a) → ∃ a, runsNext s (f a)
  | ⟨a, e⟩ => ⟨a, e ▸ next⟩

/-- The frame of an instruction's ordinary effect, as a frame of the step that runs it. -/
theorem stepFrame_ordinary {s S t : State} {i : Instr} (same : latched s S) (next : runsNext s i)
    (o : Ordinary i S.advance t) : StepFrame s t := by
  rw [same] at o
  exact {
    log := .inl o.log
    stack := o.stack.imp id (.imp (fun e : i = .ret => e ▸ next) fun hc => .inl (exists_runsNext next hc))
    index := o.index.imp id
      (.imp (exists_runsNext next) (.imp (exists_runsNext next) fun hf => .inl (exists_runsNext next hf)))
    dt := o.dt.imp id fun hx => .inl (exists_runsNext next hx)
    st := o.st.imp id fun hx => .inl (exists_runsNext next hx) }

theorem stepFrame_exec {s S t : State} {i : Instr} (same : latched s S) (next : runsNext s i)
    (h : exec i S.advance = .next t) : StepFrame s t := by
  cases exec_cases h with
  | fault f may e => subst e; exact .of_latched same (.inr ⟨_, rfl⟩) rfl rfl rfl rfl rfl
  | warning hi e => subst e; exact .of_latched same (.inr ⟨_, rfl⟩) rfl rfl rfl rfl rfl
  | ordinary o => exact stepFrame_ordinary same next o

/-- Of the host's own transactions only Tick and Reset write any of these components. -/
theorem stepFrame_host {s t : State} {tr : HostTransaction} {rest : List HostTransaction} (hin : s.inputs = tr :: rest)
    (notStep : ∀ b, tr ≠ .step b)
    (h : applyTransaction s.params.keyTable tr { s with inputs := rest } = .next t) : StepFrame s t := by
  have hnext : hostNext s tr := ⟨rest, hin⟩
  cases tr with
  | step b => exact absurd rfl (notStep b)
  | tick =>
    cases h
    exact ⟨.inl rfl, .inl ⟨rfl, rfl⟩, .inl rfl, .inr (.inr (.inl ⟨hnext, rfl⟩)), .inr (.inr (.inl hnext))⟩
  | setDown k | setUp k =>
    cases h
    rw [setKeyFlag_frame]
    exact .of_log (.inl rfl) rfl rfl rfl rfl rfl
  | keyInput k =>
    cases h
    rw [keyInput_frame]
    exact .of_log (.inl rfl) rfl rfl rfl rfl rfl
  | skip | read c =>
    cases h
    exact .of_log (.inl rfl) rfl rfl rfl rfl rfl
  | load bytes =>
    obtain rfl : load bytes { s with inputs := rest } = t := Host.Outcome.next.inj h
    rw [load_frame]
    exact .of_log (.inl rfl) rfl rfl rfl rfl rfl
  | reset =>
    cases h
    exact ⟨.inl rfl, .inr (.inr (.inr hnext)), .inr (.inr (.inr (.inr hnext))), .inr (.inr (.inr ⟨hnext, rfl⟩)),
      .inr (.inr (.inr hnext))⟩

theorem step_frame {s t : State} (h : step s = .next t) : StepFrame s t := by
  cases step_cases h with
  | idle hrun hin e => subst e; exact .of_log (.inl rfl) rfl rfl rfl rfl rfl
  | disabled tr rest hin hd e => subst e; exact .of_log (.inl rfl) rfl rfl rfl rfl rfl
  | fetchFault S f same hrun hf e => subst e; exact .of_latched same (.inr ⟨_, rfl⟩) rfl rfl rfl rfl rfl
  | ran S w same next hf e => exact stepFrame_exec same next e
  | host tr rest hin he notStep e => exact stepFrame_host hin notStep e

/-- A Tick never raises a timer: it stops at zero (R117). -/
theorem tickTimer_le (b : Byte) : (tickTimer b).toNat ≤ b.toNat := by
  unfold tickTimer
  split <;> bv_omega

/-- DT rises only by Fx15: Tick lowers it and Reset clears it (R118). -/
theorem StepFrame.dt_rises {s t : State} (f : StepFrame s t) (hlt : s.dt.toNat < t.dt.toNat) :
    ∃ x, runsNext s (.ldDtVx x) := by
  obtain e | hx | ⟨-, e⟩ | ⟨-, e⟩ := f.dt
  · rw [e] at hlt
    exact absurd hlt (Nat.lt_irrefl _)
  · exact hx
  · rw [e] at hlt
    exact absurd hlt (Nat.not_lt.mpr (tickTimer_le s.dt))
  · rw [e] at hlt
    exact absurd hlt (Nat.not_lt_zero _)

/-- Settles O14: the log of `step_frame`. -/
theorem logGrowsByAtMostOneReport : Obligations.LogGrowsByAtMostOneReport :=
  fun _ _ h => (step_frame h).log

/-- Settles O19: the stack of `step_frame`. -/
theorem stackChangesOnlyByCallRetReset : Obligations.StackChangesOnlyByCallRetReset := by
  intro s t h hne
  obtain ⟨hsp, hstack⟩ | hwriter := (step_frame h).stack
  · exact absurd hne (not_or.mpr ⟨not_not.mpr hsp, not_not.mpr hstack⟩)
  · exact hwriter

/-- Settles O20: I and the timers of `step_frame`, and that neither Tick nor Reset raises DT. -/
theorem indexAndTimersChangeOnlyByTheirWriters : Obligations.IndexAndTimersChangeOnlyByTheirWriters := by
  intro s t h
  have f := step_frame h
  exact ⟨f.index.resolve_left, fun hne => (f.dt.resolve_left hne).imp id (.imp And.left And.left), f.st.resolve_left,
    f.dt_rises⟩

end Sys2Proof.Machine
end

section
/-! PROOF. The state after power-on (R29, R127): its contents, with any parameters and on this hardware, and that it
satisfies the machine's invariant. -/

namespace Sys2Proof.Machine

/-- With nothing listed, memory reads as its reset contents. -/
@[simp] theorem byteAt_resetWith (p : Config.Params) (a : Nat) :
    (State.resetWith p).byteAt a = resetByte p.font a := rfl

@[simp] theorem getV_resetWith (p : Config.Params) (x : Reg) : (State.resetWith p).getV x = 0 := by
  simp [State.getV, State.resetWith]

theorem keys_resetWith (p : Config.Params) (k : Key) : (State.resetWith p).keys[k] = false := by
  simp [State.resetWith]

/-- Each row of glyphs 1 to F holds its pixel columns in bits 7..4 (R40). -/
theorem resetWith_glyph (p : Config.Params) (d : Fin 15) (r : Fin 5) :
    ((State.resetWith p).byteAt (5 * (d.val + 1) + r.val)).toNat = 16 * p.font[d][r].toNat := by
  rw [byteAt_resetWith, resetByte_glyph, rowByte_toNat]

/-- Settles O10: memory by the laws of the reset contents, the register file, the key flags and the display by their
lemmas, every other component by its definition; the key table and the default font are closed facts. -/
theorem resetStateIsAsSpecified : Obligations.ResetStateIsAsSpecified :=
  ⟨fun p => ⟨resetByte_glyph0 p.font, resetWith_glyph p, fun _ ha => resetByte_above ha p.font, getV_resetWith p,
      rfl, rfl, rfl, rfl, rfl, rfl, keys_resetWith p, pixel_clear, rfl, rfl, rfl, rfl, rfl, rfl, rfl, rfl⟩,
    rfl, rfl, by decide, by decide⟩

/-- The invariant after power-on: nothing is listed, stacked or logged, and the core is Running. -/
theorem resetWith_inv (p : Config.Params) : (State.resetWith p).Inv where
  memWf := ⟨.nil, fun _ h => absurd h List.not_mem_nil⟩
  stackWf := ⟨List.length_replicate, Nat.zero_le _⟩
  faultLogged := fun _ h => nomatch h
  reportsGenuine := fun _ h => absurd h List.not_mem_nil

/-- Settles O11: this hardware is the machine with the standard parameters. -/
theorem resetSatisfiesTheInvariant : Obligations.ResetSatisfiesTheInvariant :=
  ⟨resetWith_inv standardParams, resetWith_inv⟩

end Sys2Proof.Machine
end

section
/-! PROOF. Which actions write memory, the display and the key flags (R37, R123, R22), said once for every action in
`step_storage`. -/

namespace Sys2Proof.Machine

/-- For memory, the display and the key flags, that an action leaves it unchanged, or which actions write it. -/
structure StorageFrame (s t : State) : Prop where
  mem : (∀ a, t.byteAt a = s.byteAt a) ∨ (∃ x, runsNext s (.ldBVx x)) ∨ (∃ x, runsNext s (.ldMemVx x)) ∨
    (∃ bytes, hostNext s (.load bytes)) ∨ hostNext s .reset
  disp : t.disp = s.disp ∨ runsNext s .cls ∨ (∃ x y n, runsNext s (.drw x y n)) ∨ hostNext s .reset
  keys : t.keys = s.keys ∨ (∃ k, hostNext s (.setDown k)) ∨ (∃ k, hostNext s (.setUp k)) ∨ hostNext s .reset

/-- An action that writes none of the three, nor the parameters, which memory reads through. -/
theorem StorageFrame.unchanged {s t : State} (mem : t.mem = s.mem) (params : t.params = s.params)
    (disp : t.disp = s.disp) (keys : t.keys = s.keys) : StorageFrame s t :=
  ⟨.inl (byteAt_congr mem params), .inl disp, .inl keys⟩

/-- The model's own fields are none of the three. -/
theorem StorageFrame.of_latched {s S t : State} (same : latched s S) (mem : t.mem = S.mem)
    (params : t.params = S.params) (disp : t.disp = S.disp) (keys : t.keys = S.keys) : StorageFrame s t := by
  rw [same] at mem params disp keys
  exact .unchanged mem params disp keys

/-- Of the instructions only Fx33 and Fx55 write memory, only 00E0 and Dxyn the display, and none the key flags. -/
theorem storageFrame_ordinary {s S t : State} {i : Instr} (same : latched s S) (next : runsNext s i)
    (o : Ordinary i S.advance t) : StorageFrame s t := by
  rw [same] at o
  refine ⟨?_, ?_, .inl o.keys⟩
  · obtain hm | ⟨⟨x, rfl⟩ | ⟨x, rfl⟩, -⟩ := o.mem
    · exact .inl (byteAt_congr hm o.params)
    · exact .inr (.inl ⟨x, next⟩)
    · exact .inr (.inr (.inl ⟨x, next⟩))
  · obtain hd | rfl | ⟨x, y, n, rfl⟩ := o.disp
    · exact .inl hd
    · exact .inr (.inl next)
    · exact .inr (.inr (.inl ⟨x, y, n, next⟩))

theorem storageFrame_exec {s S t : State} {i : Instr} (same : latched s S) (next : runsNext s i)
    (h : exec i S.advance = .next t) : StorageFrame s t := by
  cases exec_cases h with
  | fault f may e => subst e; exact .of_latched same rfl rfl rfl rfl
  | warning hi e => subst e; exact .of_latched same rfl rfl rfl rfl
  | ordinary o => exact storageFrame_ordinary same next o

/-- Of the host's own transactions Load writes memory, SetDown and SetUp the key flags, and Reset all three. -/
theorem storageFrame_host {s t : State} {tr : HostTransaction} {rest : List HostTransaction}
    (hin : s.inputs = tr :: rest) (notStep : ∀ b, tr ≠ .step b)
    (h : applyTransaction s.params.keyTable tr { s with inputs := rest } = .next t) : StorageFrame s t := by
  have hnext : hostNext s tr := ⟨rest, hin⟩
  cases tr with
  | step b => exact absurd rfl (notStep b)
  | tick | skip | read c =>
    cases h
    exact .unchanged rfl rfl rfl rfl
  | setDown k =>
    cases h
    rw [setKeyFlag_frame]
    exact ⟨.inl fun _ => rfl, .inl rfl, .inr (.inl ⟨k, hnext⟩)⟩
  | setUp k =>
    cases h
    rw [setKeyFlag_frame]
    exact ⟨.inl fun _ => rfl, .inl rfl, .inr (.inr (.inl ⟨k, hnext⟩))⟩
  | keyInput k =>
    cases h
    rw [keyInput_frame]
    exact .unchanged rfl rfl rfl rfl
  | load bytes =>
    obtain rfl : load bytes { s with inputs := rest } = t := Host.Outcome.next.inj h
    rw [load_frame]
    exact ⟨.inr (.inr (.inr (.inl ⟨bytes, hnext⟩))), .inl rfl, .inl rfl⟩
  | reset =>
    exact ⟨.inr (.inr (.inr (.inr hnext))), .inr (.inr (.inr hnext)), .inr (.inr (.inr hnext))⟩

theorem step_storage {s t : State} (h : step s = .next t) : StorageFrame s t := by
  cases step_cases h with
  | idle hrun hin e => subst e; exact .unchanged rfl rfl rfl rfl
  | disabled tr rest hin hd e => subst e; exact .unchanged rfl rfl rfl rfl
  | fetchFault S f same hrun hf e => subst e; exact .of_latched same rfl rfl rfl rfl
  | ran S w same next hf e => exact storageFrame_exec same next e
  | host tr rest hin he notStep e => exact storageFrame_host hin notStep e

/-- Settles O21: memory, the display and the key flags of `step_storage`; a read of memory changes only where some write
of it did. -/
theorem memoryDisplayKeysChangeOnlyByTheirWriters : Obligations.MemoryDisplayKeysChangeOnlyByTheirWriters := by
  intro s t h
  have f := step_storage h
  exact ⟨fun a hne => f.mem.resolve_left fun same => hne (same a), f.disp.resolve_left, f.keys.resolve_left⟩

end Sys2Proof.Machine
end

section
/-! PROOF. The instructions that access memory are all or nothing (R38): each is decided by whether its block of
accesses fits in the store (`exec_blockFits`, `exec_blockOverruns`). -/

namespace Sys2Proof.Machine

/-- The accesses to count bytes from base on are in bounds; with no access they always are. -/
def blockFits (base count : Nat) : Prop := count = 0 ∨ base + count ≤ memSize

theorem blockFits_iff (s : State) (count : Nat) :
    blockFits (s.effAddr 0) count ↔ ∀ j < count, s.effAddr j ≤ 0xFFF := by
  simp only [blockFits, State.effAddr, memSize]
  refine ⟨by omega, fun inside => ?_⟩
  cases count with
  | zero => exact .inl rfl
  | succ last =>
    have := inside last (Nat.lt_succ_self last)
    omega

/-- The lowest effective address out of bounds is the greater of the first one and MEM_SIZE. -/
theorem max_memSize_eq {s : State} {j : Nat} (out : 0xFFF < s.effAddr j) (below : ∀ k < j, s.effAddr k ≤ 0xFFF) :
    max (s.effAddr 0) memSize = s.effAddr j := by
  simp only [State.effAddr, memSize] at out below ⊢
  cases j with
  | zero => omega
  | succ k =>
    have := below k (Nat.lt_succ_self k)
    omega

theorem exec_blockFits {i : Instr} {count : Nat} {s : State} (hi : accessCount i = some count)
    (fits : blockFits (s.effAddr 0) count) : ∃ t, exec i s = .next t ∧ t.run = s.run ∧ t.log = s.log := by
  cases i with
  | drw x y n =>
    cases hi
    rw [exec, execDrw, readBlock_ok fits]
    exact ⟨_, rfl, rfl, rfl⟩
  | ldBVx x =>
    cases hi
    exact ⟨_, congrArg (conclude _ s) (writeBlock_ok (bytes := bcdDigits (s.getV x)) fits), rfl, rfl⟩
  | ldMemVx x =>
    cases hi
    rw [← getVs_length s x] at fits
    exact ⟨_, congrArg (conclude _ s) (writeBlock_ok fits), rfl, rfl⟩
  | ldVxMem x =>
    cases hi
    rw [exec, execLdVxMem, readBlock_ok fits]
    exact ⟨_, rfl, rfl, rfl⟩
  | _ => cases hi

theorem exec_blockOverruns {i : Instr} {count : Nat} {s : State} (hi : accessCount i = some count)
    (overruns : ¬ blockFits (s.effAddr 0) count) :
    exec i s = .next (afterFault (encode i) (.memoryOutOfBounds (max (s.effAddr 0) memSize)) s) := by
  cases i with
  | drw x y n =>
    cases hi
    rw [exec, execDrw, readBlock_error overruns]
    rfl
  | ldBVx x =>
    cases hi
    exact congrArg (conclude _ s) (writeBlock_error (bytes := bcdDigits (s.getV x)) overruns)
  | ldMemVx x =>
    cases hi
    rw [← getVs_length s x] at overruns
    exact congrArg (conclude _ s) (writeBlock_error overruns)
  | ldVxMem x =>
    cases hi
    rw [exec, execLdVxMem, readBlock_error overruns]
    rfl
  | _ => cases hi

/-- Settles O54: a block with an address out of bounds overruns the store, and its lowest such address is the one
`exec_blockOverruns` faults at; one with none fits. -/
theorem outOfBoundsFaultsAtTheLowestAddress : Obligations.OutOfBoundsFaultsAtTheLowestAddress := by
  intro i count s hi
  refine ⟨fun j hj out below => ?_, fun inside => exec_blockFits hi ((blockFits_iff _ _).mpr inside)⟩
  have overruns : ¬ blockFits (s.effAddr 0) count := fun fits =>
    Nat.not_le_of_lt out ((blockFits_iff _ _).mp fits j hj)
  rw [exec_blockOverruns hi overruns, max_memSize_eq out below]

end Sys2Proof.Machine
end

section
/-! PROOF. The decoder and the encoder are inverse to each other (R49-R51, R58), and the words the decoder maps to no
instruction are those R57 lists (`decodeWord_reserved`, `isUnmapped_iff`). -/

namespace Sys2Proof

/-! ### The fields as numbers (R47) -/

theorem fieldOp_val (w : Word) : (fieldOp w).val = w.toNat / 4096 := by
  have h : (fieldOp w).val = w.toNat >>> 12 % 16 := BitVec.extractLsb'_toNat ..
  rw [h, Nat.shiftRight_eq_div_pow]
  omega

theorem fieldN_val (w : Word) : (fieldN w).val = w.toNat % 16 :=
  BitVec.extractLsb'_toNat ..

theorem fieldKK_toNat (w : Word) : (fieldKK w).toNat = w.toNat % 256 :=
  BitVec.extractLsb'_toNat ..

/-! ### The words of R57 -/

/-- The reserved words by their fields, as numbers (R57). -/
theorem reservedWord_iff (w : Word) : reservedWord w = true ↔
    (((fieldOp w).val = 5 ∨ (fieldOp w).val = 9) ∧ (fieldN w).val ≠ 0) ∨
    ((fieldOp w).val = 8 ∧ 8 ≤ (fieldN w).val ∧ (fieldN w).val ≠ 0xE) ∨
    ((fieldOp w).val = 0xE ∧ (fieldKK w).toNat ∉ [0x9E, 0xA1]) ∨
    ((fieldOp w).val = 0xF ∧ (fieldKK w).toNat ∉ [0x07, 0x0A, 0x15, 0x18, 0x1E, 0x29, 0x33, 0x55, 0x65]) := by
  have hn := (fieldN w).isLt
  simp only [fieldN, fieldOp, fieldKK, BitVec.val_toFin] at hn ⊢
  simp [reservedWord, BitVec.toNat_eq, -BitVec.extractLsb'_toNat]
  omega

theorem decodeAlu_reserved {w : Word} (hlo : 8 ≤ (fieldN w).val) (hne : (fieldN w).val ≠ 0xE) :
    decodeAlu w = .unmapped w := by
  unfold decodeAlu
  split
  case h_10 => rfl
  all_goals omega

theorem decodeKey_reserved {w : Word} (h : (fieldKK w).toNat ∉ [0x9E, 0xA1]) : decodeKey w = .unmapped w := by
  unfold decodeKey
  split
  case h_3 => rfl
  all_goals next hkk => simp [hkk] at h

theorem decodeExtended_reserved {w : Word}
    (h : (fieldKK w).toNat ∉ [0x07, 0x0A, 0x15, 0x18, 0x1E, 0x29, 0x33, 0x55, 0x65]) :
    decodeExtended w = .unmapped w := by
  unfold decodeExtended
  split
  case h_10 => rfl
  all_goals next hkk => simp [hkk] at h

theorem decodeWord_reserved {w : Word} (h : reservedWord w = true) : decodeWord w = .unmapped w := by
  rw [reservedWord_iff] at h
  obtain ⟨hop | hop, hn⟩ | ⟨hop, hlo, hne⟩ | ⟨hop, hkk⟩ | ⟨hop, hkk⟩ := h
  · simp only [decodeWord, hop]
    exact if_neg fun e => hn (congrArg Fin.val e)
  · simp only [decodeWord, hop]
    exact if_neg fun e => hn (congrArg Fin.val e)
  · simp only [decodeWord, hop, decodeAlu_reserved hlo hne]
  · simp only [decodeWord, hop, decodeKey_reserved hkk]
  · simp only [decodeWord, hop, decodeExtended_reserved hkk]

/-- The 0 family is SYS but for its two mapped words (R51, R57). -/
theorem decodeWord_sys {w : Word} (hop : (fieldOp w).val = 0) (hcls : w ≠ 0x00E0) (hret : w ≠ 0x00EE) :
    decodeWord w = .sys (fieldNNN w) := by
  simp only [decodeWord, hop, decodeScreen, hcls, hret, if_false]

/-! ### Decoding the word of an instruction -/

theorem decodeWord_encode {i : Instr} (h : WellFormed i = true) : decodeWord (encode i) = i := by
  cases i with
  | cls | ret => rfl
  | sys nnn =>
    obtain ⟨hcls, hret⟩ : nnn ≠ 0x0E0 ∧ nnn ≠ 0x0EE := by simpa [WellFormed] using h
    have hnnn : fieldNNN (encode (.sys nnn)) = nnn := fieldNNN_formatA _ _
    rw [decodeWord_sys (congrArg Fin.val (fieldOp_formatA _ _)), hnnn]
    · exact fun e => hcls (hnnn.symm.trans (congrArg fieldNNN e))
    · exact fun e => hret (hnnn.symm.trans (congrArg fieldNNN e))
  | unmapped w => exact decodeWord_reserved h
  | ldReg x y | orReg x y | andReg x y | xorReg x y | addReg x y | sub x y | shr x y | subn x y | shl x y =>
    simp [encode, decodeWord, decodeAlu]
  | skp x | sknp x => simp [encode, decodeWord, decodeKey]
  | ldVxDt x | ldVxK x | ldDtVx x | ldStVx x | addIVx x | ldFVx x | ldBVx x | ldMemVx x | ldVxMem x =>
    simp [encode, decodeWord, decodeExtended]
  | _ => simp [encode, decodeWord]

theorem decodeBytes_encodeBytes (i : Instr) (rest : List Byte) :
    decodeBytes (encodeBytes i ++ rest) = .ok (decodeWord (encode i), rest) :=
  congrArg (fun w => Except.ok (decodeWord w, rest)) (opcodeOfBytes_bytes (encode i))

/-- Settles O1: by the instruction, from the fields of its format; the bytes put together are its word. -/
theorem decodeOfEncodeIsTheInstruction : Obligations.DecodeOfEncodeIsTheInstruction := by
  intro i h
  refine ⟨decodeWord_encode h, fun rest => ?_⟩
  rw [decodeBytes_encodeBytes, decodeWord_encode h]

/-! ### Encoding the instruction a word decodes to -/

theorem nibble_fieldOp {w : Word} {op : BitVec 4} (h : (fieldOp w).val = op.toNat) : nibble (fieldOp w) = op :=
  BitVec.eq_of_toNat_eq h

theorem formatA_of_fields {w : Word} {op : BitVec 4} (hop : (fieldOp w).val = op.toNat) :
    formatA op (fieldNNN w) = w := by
  rw [← nibble_fieldOp hop, formatA_fields]

theorem formatXK_of_fields {w : Word} {op : BitVec 4} {kk : Byte} (hop : (fieldOp w).val = op.toNat)
    (hkk : (fieldKK w).toNat = kk.toNat) : formatXK op (fieldX w) kk = w := by
  rw [← nibble_fieldOp hop, ← BitVec.eq_of_toNat_eq hkk, formatXK_fields]

theorem formatXY_of_fields {w : Word} {op s : BitVec 4} (hop : (fieldOp w).val = op.toNat)
    (hn : (fieldN w).val = s.toNat) : formatXY op (fieldX w) (fieldY w) s = w := by
  have hs : nibble (fieldN w) = s := BitVec.eq_of_toNat_eq hn
  rw [← nibble_fieldOp hop, ← hs, formatXY_fields]

theorem encode_decodeScreen {w : Word} (hop : (fieldOp w).val = 0) : encode (decodeScreen w) = w := by
  unfold decodeScreen
  split_ifs with hcls hret
  · exact hcls.symm
  · exact hret.symm
  · exact formatA_of_fields hop

theorem encode_decodeAlu {w : Word} (hop : (fieldOp w).val = 8) : encode (decodeAlu w) = w := by
  unfold decodeAlu
  split
  case h_10 => rfl
  all_goals exact formatXY_of_fields hop ‹_›

theorem encode_decodeKey {w : Word} (hop : (fieldOp w).val = 0xE) : encode (decodeKey w) = w := by
  unfold decodeKey
  split
  case h_3 => rfl
  all_goals exact formatXK_of_fields hop ‹_›

theorem encode_decodeExtended {w : Word} (hop : (fieldOp w).val = 0xF) : encode (decodeExtended w) = w := by
  unfold decodeExtended
  split
  case h_10 => rfl
  all_goals exact formatXK_of_fields hop ‹_›

theorem encode_decodeWord (w : Word) : encode (decodeWord w) = w := by
  unfold decodeWord
  split <;> rename_i hop
  · exact encode_decodeScreen hop
  · exact formatA_of_fields hop
  · exact formatA_of_fields hop
  · exact formatXK_of_fields hop rfl
  · exact formatXK_of_fields hop rfl
  · split_ifs with hn
    · exact formatXY_of_fields hop (congrArg Fin.val hn)
    · rfl
  · exact formatXK_of_fields hop rfl
  · exact formatXK_of_fields hop rfl
  · exact encode_decodeAlu hop
  · split_ifs with hn
    · exact formatXY_of_fields hop (congrArg Fin.val hn)
    · rfl
  · exact formatA_of_fields hop
  · exact formatA_of_fields hop
  · exact formatXK_of_fields hop rfl
  · exact formatXY_of_fields hop rfl
  · exact encode_decodeKey hop
  · exact encode_decodeExtended hop
  · rfl

/-! ### A decoded word is well formed -/

theorem wellFormed_decodeScreen {w : Word} (hop : (fieldOp w).val = 0) : WellFormed (decodeScreen w) = true := by
  unfold decodeScreen
  split_ifs with hcls hret
  · rfl
  · rfl
  · have hw : formatA 0x0 (fieldNNN w) = w := formatA_of_fields hop
    have hcls' : fieldNNN w ≠ 0x0E0 := fun e => hcls (hw.symm.trans (congrArg (formatA 0x0) e))
    have hret' : fieldNNN w ≠ 0x0EE := fun e => hret (hw.symm.trans (congrArg (formatA 0x0) e))
    simpa [WellFormed] using And.intro hcls' hret'

theorem wellFormed_decodeAlu {w : Word} (hop : (fieldOp w).val = 8) : WellFormed (decodeAlu w) = true := by
  unfold decodeAlu
  split
  case h_10 =>
    simp only [imp_false] at *
    exact (reservedWord_iff w).mpr (.inr (.inl ⟨hop, by omega⟩))
  all_goals rfl

theorem wellFormed_decodeKey {w : Word} (hop : (fieldOp w).val = 0xE) : WellFormed (decodeKey w) = true := by
  unfold decodeKey
  split
  case h_3 => exact (reservedWord_iff w).mpr (.inr (.inr (.inl ⟨hop, by simp_all⟩)))
  all_goals rfl

theorem wellFormed_decodeExtended {w : Word} (hop : (fieldOp w).val = 0xF) :
    WellFormed (decodeExtended w) = true := by
  unfold decodeExtended
  split
  case h_10 => exact (reservedWord_iff w).mpr (.inr (.inr (.inr ⟨hop, by simp_all⟩)))
  all_goals rfl

theorem wellFormed_decodeWord (w : Word) : WellFormed (decodeWord w) = true := by
  unfold decodeWord
  split <;> rename_i hop
  case h_1 => exact wellFormed_decodeScreen hop
  case h_6 =>
    split_ifs with hn
    · rfl
    · exact (reservedWord_iff w).mpr (.inl ⟨.inl hop, fun e => hn (Fin.ext e)⟩)
  case h_9 => exact wellFormed_decodeAlu hop
  case h_10 =>
    split_ifs with hn
    · rfl
    · exact (reservedWord_iff w).mpr (.inl ⟨.inr hop, fun e => hn (Fin.ext e)⟩)
  case h_15 => exact wellFormed_decodeKey hop
  case h_16 => exact wellFormed_decodeExtended hop
  case h_17 =>
    simp only [imp_false] at *
    omega
  all_goals rfl

/-- Settles O2: each field the decoder reads is the one the encoder writes, and what it answers `unmapped` is
reserved. -/
theorem everyWordEncodesItsDecoding : Obligations.EveryWordEncodesItsDecoding :=
  fun w => ⟨wellFormed_decodeWord w, encode_decodeWord w⟩

/-! ### The unmapped words -/

/-- The unmapped words are the 0 family but for its two mapped words, and the reserved words (R57). -/
theorem isUnmapped_iff (w : Word) : Machine.isUnmapped w ↔
    ((fieldOp w).val = 0 ∧ w ≠ 0x00E0 ∧ w ≠ 0x00EE) ∨ reservedWord w = true := by
  have hw := encode_decodeWord w
  constructor
  · rintro (⟨nnn, h⟩ | ⟨u, h⟩)
    · rw [h] at hw
      refine .inl ⟨?_, ?_, ?_⟩
      · rw [← hw]
        exact congrArg Fin.val (fieldOp_formatA 0x0 nnn)
      · rintro rfl
        cases h
      · rintro rfl
        cases h
    · have hwf := wellFormed_decodeWord w
      rw [h] at hw hwf
      exact .inr (hw ▸ hwf)
  · rintro (⟨hop, hcls, hret⟩ | hr)
    · exact .inl ⟨_, decodeWord_sys hop hcls hret⟩
    · exact .inr ⟨_, decodeWord_reserved hr⟩

/-- Settles O3: the fields of the reserved words, as digits of the word. -/
theorem unmappedWordsAreThoseListed : Obligations.UnmappedWordsAreThoseListed := by
  intro w
  rw [isUnmapped_iff, reservedWord_iff, fieldOp_val, fieldN_val, fieldKK_toNat, ne_eq, ne_eq, ← BitVec.toNat_inj,
    ← BitVec.toNat_inj]
  exact Iff.rfl

/-- Settles O4: the decoder evaluated on each word. -/
theorem sampleWordsDecode : Obligations.SampleWordsDecode :=
  ⟨rfl, rfl, rfl, rfl, rfl, rfl, rfl, rfl, rfl, rfl, rfl⟩

/-- Settles O5: the first two bytes are put together with the first one high. -/
theorem decoderTakesTwoBytesBigEndian : Obligations.DecoderTakesTwoBytesBigEndian :=
  fun hi lo _ => ⟨opcodeOfBytes hi lo, opcodeOfBytes_toNat hi lo, rfl⟩

end Sys2Proof
end

section
/-! PROOF. One instruction cycle (R52-R54) as a step runs it, what its fetch reads, and that every action answers a next
state with the same parameters (R56, R104). -/

namespace Sys2Proof.Machine

/-! ### Fetch and the decoded instruction -/

/-- The three ways a fetch ends, by PC as a number. -/
theorem fetch_cases_toNat (s : State) :
    (s.pc.toNat + 1 < 4096 ∧ fetch s = .ok (opcodeOfBytes (s.byteAt s.pc.toNat) (s.byteAt (s.pc.toNat + 1)))) ∨
    (4096 ≤ s.pc.toNat ∧ fetch s = .error (.memoryOutOfBounds s.pc.toNat)) ∨
    (s.pc.toNat + 1 = 4096 ∧ fetch s = .error (.memoryOutOfBounds (s.pc.toNat + 1))) :=
  fetch_cases s

/-- A fetch inside the store reads the two bytes at PC (R53). -/
theorem fetch_inside {s : State} (h : s.pc.toNat + 1 ≤ 0xFFF) :
    fetch s = .ok (opcodeOfBytes (s.byteAt s.pc.toNat) (s.byteAt (s.pc.toNat + 1))) := by
  obtain ⟨-, hf⟩ | ⟨hpc, -⟩ | ⟨hpc, -⟩ := fetch_cases_toNat s
  · exact hf
  · omega
  · omega

theorem fetch_above {s : State} (h : 0xFFF < s.pc.toNat) : fetch s = .error (.memoryOutOfBounds s.pc.toNat) := by
  obtain ⟨hpc, -⟩ | ⟨-, hf⟩ | ⟨hpc, -⟩ := fetch_cases_toNat s
  · omega
  · exact hf
  · omega

theorem fetch_last {s : State} (h : s.pc.toNat = 0xFFF) : fetch s = .error (.memoryOutOfBounds 0x1000) := by
  obtain ⟨hpc, -⟩ | ⟨hpc, -⟩ | ⟨-, hf⟩ := fetch_cases_toNat s
  · omega
  · omega
  · rw [hf, h]

/-- A cycle runs the instruction the two bytes at PC decode to, from the advanced PC (R54). -/
theorem cycle_decoded {s : State} {i : Instr} (hpc : s.pc.toNat + 1 ≤ 0xFFF)
    (hi : decodeBytes [s.byteAt s.pc.toNat, s.byteAt (s.pc.toNat + 1)] = .ok (i, [])) :
    cycle s = exec i s.advance := by
  rw [cycle_ok (fetch_inside hpc)]
  cases hi
  rfl

/-- Settles O6: a Step is one cycle from the state its byte is latched in, which fetches as the state before it. -/
theorem stepRunsTheDecodedInstruction : Obligations.StepRunsTheDecodedInstruction := by
  intro s i hrun hpc hi
  refine ⟨fun rnd rest hin => ?_, fun hin => ?_⟩
  · rw [step_scheduledStep hrun hin]
    exact cycle_decoded (s := { s with inputs := rest, rnd := rnd }) hpc hi
  · rw [step_freeStep hrun hin]
    exact cycle_decoded (s := { s with rnd := Config.freeRnd s.draws, draws := s.draws + 1 }) hpc hi

/-- Settles O7: the fetch by where PC stands; its fault is taken from the state the byte is latched in. -/
theorem fetchReadsTheWordAtPc : Obligations.FetchReadsTheWordAtPc := by
  intro s
  refine ⟨fun h => ⟨_, fetch_inside h, opcodeOfBytes_toNat _ _⟩, fetch_above, fetch_last, ?_⟩
  intro f rnd rest hrun hin hf
  rw [step_scheduledStep hrun hin]
  exact cycle_error ((fetch_ownFields s rest rnd s.draws).trans hf)

/-! ### Every action answers a next state -/

/-- Every instruction has an effect: those that may fault conclude in one, and the others answer their own state. -/
theorem exec_next (i : Instr) (s : State) : ∃ t, exec i s = .next t := by
  cases i with
  | ret | call nnn | drw x y n | skp x | sknp x | ldBVx x | ldMemVx x | ldVxMem x => exact conclude_next _ _ _
  | _ => exact ⟨_, rfl⟩

theorem cycle_next (s : State) : ∃ t, cycle s = .next t := by
  cases hf : fetch s with
  | error f => exact ⟨_, cycle_error hf⟩
  | ok w =>
    rw [cycle_ok hf]
    exact exec_next _ _

theorem applyTransaction_next {κ : Type} [DecidableEq κ] (table : Vector κ 16) (tr : Transaction κ) (s : State) :
    ∃ t, applyTransaction table tr s = .next t := by
  cases tr with
  | step rnd => exact cycle_next _
  | _ => exact ⟨_, rfl⟩

theorem step_next (s : State) : ∃ t, step s = .next t := by
  cases hin : s.inputs with
  | nil =>
    by_cases hrun : s.run = .running
    · rw [step_freeStep hrun hin]
      exact cycle_next _
    · exact ⟨s, step_suspended hrun hin⟩
  | cons tr rest =>
    cases he : enabled tr s.run with
    | false => exact ⟨_, step_disabled hin he⟩
    | true =>
      rw [step_enabled hin he]
      exact applyTransaction_next _ _ _

/-! ### No action changes the parameters -/

theorem exec_params {i : Instr} {s t : State} (h : exec i s = .next t) : t.params = s.params := by
  cases exec_cases h with
  | fault f may e => rw [e, takeFault_params, undoAdvance_params]
  | warning hi e => rw [e, reportUnmapped_eq, report_params]
  | ordinary o => exact o.params

theorem host_params {κ : Type} [DecidableEq κ] {table : Vector κ 16} {tr : Transaction κ} {s t : State}
    (notStep : ∀ b, tr ≠ .step b) (h : applyTransaction table tr s = .next t) : t.params = s.params := by
  cases tr with
  | step b => exact absurd rfl (notStep b)
  | tick | skip | read c | reset => cases h; rfl
  | setDown k | setUp k => cases h; rw [setKeyFlag_frame]
  | keyInput k => cases h; rw [keyInput_frame]
  | load bytes =>
    obtain rfl : load bytes s = t := Host.Outcome.next.inj h
    rw [load_frame]

theorem latched_params {s S : State} (same : latched s S) : S.params = s.params := by
  rw [same]

theorem step_params {s t : State} (h : step s = .next t) : t.params = s.params := by
  cases step_cases h with
  | idle hrun hin e => rw [e]
  | disabled tr rest hin hd e => rw [e]
  | fetchFault S f same hrun hf e => rw [e, takeFault_params, latched_params same]
  | ran S w same next hf e => rw [exec_params e, advance_params, latched_params same]
  | host tr rest hin he notStep e => exact host_params (s := { s with inputs := rest }) notStep e

/-- Settles O13: `step_next` and `step_params`. -/
theorem everyStepAnswersANextState : Obligations.EveryStepAnswersANextState := by
  intro s
  obtain ⟨t, h⟩ := step_next s
  exact ⟨t, h, step_params h⟩

end Sys2Proof.Machine
end

section
/-! PROOF. The screen and control instructions: 00E0 clears the display (R61), and 00EE returns to the address on top of
the stack, or takes the fault of an empty one (R62, R20). -/

namespace Sys2Proof.Machine

/-- No word starts above 0xFFE: one at 0xFFF has its low byte outside the store (R53). -/
theorem fetch_pastLastWord {s : State} (h : 0xFFE < s.pc.toNat) : ∃ a, fetch s = .error (.memoryOutOfBounds a) := by
  by_cases hlast : s.pc.toNat = 0xFFF
  · exact ⟨_, fetch_last hlast⟩
  · exact ⟨_, fetch_above (by omega)⟩

theorem execRet_returns {s : State} {k : Nat} (h : s.sp = k + 1) :
    execRet s = .next { s with pc := s.stackAt k, sp := k } := by
  have hpop : pop s = .ok (s.stackAt k, { s with sp := k }) := by
    rw [pop_ok (h ▸ Nat.succ_ne_zero k), h, Nat.add_sub_cancel]
  rw [execRet, hpop]
  rfl

theorem execRet_underflows {s : State} (h : s.sp = 0) :
    execRet s = .next (afterFault (encode .ret) .stackUnderflow s) := by
  rw [execRet, pop_error h]
  rfl

/-- Settles O22: the display becomes `Display.clear`, which has no lit pixel. -/
theorem clsClearsTheDisplay : Obligations.ClsClearsTheDisplay :=
  ⟨rfl, fun s => ⟨s.setDisp Display.clear, rfl, pixel_clear, rfl, fun _ => rfl⟩⟩

/-- Settles O23: `execRet_returns` on a stack that is not empty, `execRet_underflows` on one that is. -/
theorem retPopsTheReturnAddress : Obligations.RetPopsTheReturnAddress :=
  ⟨rfl, fun _ => ⟨fun _ hsp => ⟨_, execRet_returns hsp, rfl, rfl, rfl, ⟨rfl, fun _ => rfl⟩, fetch_pastLastWord⟩,
    execRet_underflows⟩⟩

end Sys2Proof.Machine
end

section
/-! PROOF. The jumps and the call: 1nnn and Bnnn write PC alone (R63, R65); 2nnn pushes the address after it, or takes
the fault of a full stack (R64, R19), and a later 00EE returns to that address (R62). -/

namespace Sys2Proof.Machine

theorem execCall_pushes {nnn : BitVec 12} {s : State} (h : s.sp < s.params.stackDepth) :
    execCall nnn s = .next { s with pc := zextNNN nnn, sp := s.sp + 1, stack := s.stack.set s.sp s.pc } := by
  rw [execCall, push_ok h]
  rfl

theorem execCall_overflows {nnn : BitVec 12} {s : State} (h : s.params.stackDepth ≤ s.sp) :
    execCall nnn s = .next (afterFault (encode (.call nnn)) .stackOverflow s) := by
  rw [execCall, push_error h]
  rfl

/-- Below STACK_DEPTH, SP names an entry of a well-formed stack's storage (R17). -/
theorem sp_lt_stack_length {s : State} (hwf : s.stackWf) (h : s.sp < s.params.stackDepth) : s.sp < s.stack.length := by
  obtain ⟨hlen, -⟩ := hwf
  rwa [hlen]

/-- Settles O27: the entry that 00EE pops is the one 2nnn pushed, at the SP before the call. -/
theorem retAfterCallReturns : Obligations.RetAfterCallReturns := by
  intro nnn s t m hwf hroom hcall hsp hstack
  obtain rfl := Host.Outcome.next.inj ((execCall_pushes hroom).symm.trans hcall)
  have hpopped : m.stackAt s.sp = s.pc := by
    rw [stackAt_push (sp_lt_stack_length hwf hroom) hstack, if_pos rfl]
  exact ⟨_, execRet_returns hsp, hpopped, rfl⟩

/-- Settles O24: PC becomes nnn as a number; where that is P, the jump run again sets PC to the value it has. -/
theorem jpSetsPc : Obligations.JpSetsPc := by
  intro nnn s
  refine ⟨decodeWord_encode (i := .jp nnn) rfl, s.setPc (zextNNN nnn), rfl, zextNNN_toNat nnn, ⟨rfl, fun _ => rfl⟩,
    fun hlast => ?_, fun hself => ⟨?_, rfl⟩⟩
  · exact fetch_last ((zextNNN_toNat nnn).trans (congrArg BitVec.toNat hlast))
  · exact BitVec.eq_of_toNat_eq ((zextNNN_toNat nnn).trans hself)

/-- Settles O25: `execCall_pushes` with room on the stack, `execCall_overflows` on a full one. -/
theorem callPushesTheReturnAddress : Obligations.CallPushesTheReturnAddress := by
  intro nnn s
  refine ⟨decodeWord_encode (i := .call nnn) rfl, fun hroom => ?_, fun hfull => execCall_overflows hfull.ge⟩
  exact ⟨_, execCall_pushes hroom, zextNNN_toNat nnn, rfl, fun hwf => stackAt_push (sp_lt_stack_length hwf hroom) rfl,
    List.length_set, rfl, fun _ => rfl⟩

/-- Settles O26: the 16-bit sum of `execJpV0` is the unbounded one. -/
theorem jpV0AddsV0 : Obligations.JpV0AddsV0 := fun nnn s =>
  ⟨decodeWord_encode (i := .jpV0 nnn) rfl, _, rfl, zextNNN_add_zextByte_toNat nnn (s.getV 0), ⟨rfl, fun _ => rfl⟩,
    fetch_pastLastWord⟩

end Sys2Proof.Machine
end

section
/-! PROOF. The conditional skips (R66-R70): all four are a `skipIf`, which writes PC alone; 3xkk and 5xy0 skip when two
bytes are equal, 4xkk and 9xy0 unless they are. -/

namespace Sys2Proof.Machine

theorem onlyPc_skipIf (s : State) (c : Bool) : onlyPc s (s.skipIf c) := by
  cases c with
  | true => exact ⟨rfl, fun _ => rfl⟩
  | false => exact ⟨rfl, fun _ => rfl⟩

/-- A skip taken just when P holds, with PC as a number: the advance wraps mod 2^16 (R54). -/
theorem skipIf_pc_toNat {s : State} {c : Bool} {P : Prop} [Decidable P] (h : c = true ↔ P) :
    (s.skipIf c).pc.toNat = if P then (s.pc.toNat + 2) % 65536 else s.pc.toNat := by
  rw [skipIf_pc, apply_ite BitVec.toNat, BitVec.toNat_add]
  exact ite_congr (propext h) (fun _ => rfl) (fun _ => rfl)

theorem exec_skipsWhenEqual {i : Instr} {s : State} {a b : Byte} (h : exec i s = .next (s.skipIf (a == b))) :
    ∃ t, exec i s = .next t ∧ onlyPc s t ∧
      t.pc.toNat = if a.toNat = b.toNat then (s.pc.toNat + 2) % 65536 else s.pc.toNat :=
  ⟨_, h, onlyPc_skipIf s _, skipIf_pc_toNat (beq_iff_eq.trans BitVec.toNat_inj.symm)⟩

theorem exec_skipsUnlessEqual {i : Instr} {s : State} {a b : Byte} (h : exec i s = .next (s.skipIf (a != b))) :
    ∃ t, exec i s = .next t ∧ onlyPc s t ∧
      t.pc.toNat = if a.toNat = b.toNat then s.pc.toNat else (s.pc.toNat + 2) % 65536 :=
  ⟨_, h, onlyPc_skipIf s _,
    (skipIf_pc_toNat (bne_iff_ne.trans (not_congr BitVec.toNat_inj.symm))).trans (ite_not ..)⟩

/-- The words of the 5 and 9 families with a low nibble other than 0 are reserved (R57). -/
theorem isUnmapped_formatXY {op n : BitVec 4} {x y : Reg} (hop : op = 0x5 ∨ op = 0x9) (hn : n ≠ 0) :
    isUnmapped (formatXY op x y n) := by
  rw [isUnmapped_iff, reservedWord_iff, fieldOp_formatXY, fieldN_formatXY]
  exact .inr (.inl ⟨hop.imp (congrArg BitVec.toNat) (congrArg BitVec.toNat), fun e => hn (BitVec.eq_of_toNat_eq e)⟩)

/-- Settles O28: `exec_skipsWhenEqual` for 3xkk, `exec_skipsUnlessEqual` for 4xkk. -/
theorem skipsOnAnImmediate : Obligations.SkipsOnAnImmediate := fun x kk _ =>
  ⟨decodeWord_encode (i := .seImm x kk) rfl, decodeWord_encode (i := .sneImm x kk) rfl, exec_skipsWhenEqual rfl,
    exec_skipsUnlessEqual rfl⟩

/-- Settles O29: `exec_skipsWhenEqual` for 5xy0, `exec_skipsUnlessEqual` for 9xy0, and `isUnmapped_formatXY`. -/
theorem skipsOnARegister : Obligations.SkipsOnARegister := fun x y _ =>
  ⟨⟨decodeWord_encode (i := .seReg x y) rfl, decodeWord_encode (i := .sneReg x y) rfl,
      fun _ hn => ⟨isUnmapped_formatXY (.inl rfl) hn, isUnmapped_formatXY (.inr rfl) hn⟩⟩,
    exec_skipsWhenEqual rfl, exec_skipsUnlessEqual rfl⟩

end Sys2Proof.Machine
end

section
/-! PROOF. The immediate load and add (R71, R72): both are one write of V[x], which leaves the other registers, VF among
them, and the rest of the state. -/

namespace Sys2Proof.Machine

/-- The frame of a write of one register. -/
theorem setV_frame (s : State) (x : Reg) (b : Byte) :
    (∀ r, r ≠ x → (s.setV x b).getV r = s.getV r) ∧ onlyV s (s.setV x b) :=
  ⟨fun r hr => getV_setV_ne s x r b hr, rfl, fun _ => rfl⟩

/-- Settles O30: V[x] reads back the byte written, and `setV_frame` is the rest. -/
theorem ldImmLoadsTheByte : Obligations.LdImmLoadsTheByte := fun x kk s =>
  ⟨decodeWord_encode (i := .ldImm x kk) rfl, s.setV x kk, rfl, getV_setV_same s x kk, setV_frame s x kk⟩

/-- Settles O31: V[x] reads back the 8-bit sum, which wraps mod 256, and `setV_frame` is the rest. -/
theorem addImmAddsWithoutCarry : Obligations.AddImmAddsWithoutCarry := by
  intro x kk s
  have hsum : ((s.setV x (s.getV x + kk)).getV x).toNat = ((s.getV x).toNat + kk.toNat) % 256 := by
    rw [getV_setV_same, BitVec.toNat_add]
  exact ⟨decodeWord_encode (i := .addImm x kk) rfl, s.setV x (s.getV x + kk), rfl, hsum, setV_frame s x _⟩

end Sys2Proof.Machine
end

section
/-! PROOF. The ALU family (R73-R84): 8xy0 to 8xy3 are one write of V[x]; the others write V[x] and then the flag, so
that VF holds the flag for every x, and V[x] the result where x is not F (R74). -/

namespace Sys2Proof.Machine

/-! ### The flags as numbers -/

theorem flagByte_decide_toNat (P : Prop) [Decidable P] : (flagByte (decide P)).toNat = if P then 1 else 0 := by
  by_cases h : P <;> simp [flagByte, h]

theorem flagByte_carry_toNat (a b : Byte) :
    (flagByte (carry a b)).toNat = if 255 < a.toNat + b.toNat then 1 else 0 :=
  flagByte_decide_toNat _

theorem flagByte_noBorrow_toNat (a b : Byte) : (flagByte (noBorrow a b)).toNat = if b.toNat ≤ a.toNat then 1 else 0 :=
  flagByte_decide_toNat _

/-- The flag of bit j is that binary digit of the byte. -/
theorem flagByte_getLsbD_toNat (a : Byte) (j : Nat) : (flagByte (a.getLsbD j)).toNat = a.toNat / 2 ^ j % 2 := by
  have hbit : ∀ c : Bool, (flagByte c).toNat = c.toNat := by decide
  rw [hbit, BitVec.getLsbD, Nat.toNat_testBit]

theorem flagByte_shiftedOutRight_toNat (a : Byte) : (flagByte (shiftedOutRight a)).toNat = a.toNat % 2 :=
  (flagByte_getLsbD_toNat a 0).trans (congrArg (· % 2) (Nat.div_one _))

theorem flagByte_shiftedOutLeft_toNat (a : Byte) : (flagByte (shiftedOutLeft a)).toNat = a.toNat / 128 := by
  have htop : a.toNat / 2 ^ 7 < 2 := Nat.div_lt_of_lt_mul a.isLt
  exact (flagByte_getLsbD_toNat a 7).trans (Nat.mod_eq_of_lt htop)

/-! ### The results as numbers -/

/-- 8-bit subtraction is the integer difference mod 256. -/
theorem byteSub_toNat (a b : Byte) : ((a - b).toNat : Int) = ((a.toNat : Int) - b.toNat) % 256 := by
  rw [BitVec.toNat_sub]
  omega

theorem byteShiftRight_toNat (a : Byte) : (a >>> 1).toNat = a.toNat / 2 := by
  rw [BitVec.toNat_ushiftRight, Nat.shiftRight_one]

theorem byteShiftLeft_toNat (a : Byte) : (a <<< 1).toNat = 2 * a.toNat % 256 := by
  rw [BitVec.toNat_shiftLeft, Nat.shiftLeft_eq, Nat.mul_comm]

/-! ### The two writes of a flagged instruction -/

/-- What a flagged instruction leaves: its flag f as a number in VF, and in V[x], seen through `view`, its result r
unless x = 0xF (R74); the other registers and the rest of the state are as before. -/
theorem setResultAndFlag_spec {α : Type} (s : State) (x : Reg) {b : Byte} {c : Bool} {f : Nat} {r : α}
    (view : Byte → α) (hflag : (flagByte c).toNat = f) (hresult : view b = r) :
    ((s.setResultAndFlag x b c).getV vf).toNat = f ∧
      (x ≠ vf → view ((s.setResultAndFlag x b c).getV x) = r) ∧
      (∀ q, q ≠ x → q ≠ vf → (s.setResultAndFlag x b c).getV q = s.getV q) ∧ onlyV s (s.setResultAndFlag x b c) := by
  refine ⟨?_, fun hx => ?_, fun q hqx hqf => setResultAndFlag_other s x q b c hqx hqf, rfl, fun _ => rfl⟩
  · rw [setResultAndFlag_vf, hflag]
  · rw [setResultAndFlag_dest s x b c hx, hresult]

/-- Settles O32: V[x] reads back the byte written, bit by bit, and `setV_frame` is the rest. -/
theorem copyAndLogicWriteOnlyVx : Obligations.CopyAndLogicWriteOnlyVx := by
  intro x y s
  refine ⟨⟨decodeWord_encode (i := .ldReg x y) rfl, decodeWord_encode (i := .orReg x y) rfl,
    decodeWord_encode (i := .andReg x y) rfl, decodeWord_encode (i := .xorReg x y) rfl⟩, ?copy, ?or, ?and, ?xor⟩
  case copy => exact ⟨_, rfl, getV_setV_same s x _, setV_frame s x _⟩
  case or => exact ⟨_, rfl, fun j _ => by rw [getV_setV_same, BitVec.getLsbD_or], setV_frame s x _⟩
  case and => exact ⟨_, rfl, fun j _ => by rw [getV_setV_same, BitVec.getLsbD_and], setV_frame s x _⟩
  case xor => exact ⟨_, rfl, fun j _ => by rw [getV_setV_same, BitVec.getLsbD_xor], setV_frame s x _⟩

/-- Settles O33: the flag is the carry, and the 8-bit sum wraps mod 256. -/
theorem addRegSetsSumAndCarry : Obligations.AddRegSetsSumAndCarry := fun x y s =>
  ⟨decodeWord_encode (i := .addReg x y) rfl, _, rfl,
    setResultAndFlag_spec s x BitVec.toNat (flagByte_carry_toNat _ _) (BitVec.toNat_add _ _)⟩

/-- Settles O34: the flag is no borrow in V[x] - V[y], and the difference is `byteSub_toNat`. -/
theorem subSetsDifferenceAndNoBorrow : Obligations.SubSetsDifferenceAndNoBorrow := fun x y s =>
  ⟨decodeWord_encode (i := .sub x y) rfl, _, rfl,
    setResultAndFlag_spec s x (fun v => (v.toNat : Int)) (flagByte_noBorrow_toNat _ _) (byteSub_toNat _ _)⟩

/-- Settles O35: the flag is the lowest binary digit of V[x] and the result its half; `execShr` does not read y. -/
theorem shrShiftsVxRight : Obligations.ShrShiftsVxRight := by
  intro x y s
  obtain ⟨hflag, hhalf, hother, honly⟩ :=
    setResultAndFlag_spec s x BitVec.toNat (flagByte_shiftedOutRight_toNat (s.getV x)) (byteShiftRight_toNat (s.getV x))
  exact ⟨decodeWord_encode (i := .shr x y) rfl, _, rfl, hflag, hhalf, hother, honly, fun _ => rfl⟩

/-- Settles O36: the flag is no borrow in V[y] - V[x], and the difference is `byteSub_toNat`. -/
theorem subnSetsReverseDifference : Obligations.SubnSetsReverseDifference := fun x y s =>
  ⟨decodeWord_encode (i := .subn x y) rfl, _, rfl,
    setResultAndFlag_spec s x (fun v => (v.toNat : Int)) (flagByte_noBorrow_toNat _ _) (byteSub_toNat _ _)⟩

/-- Settles O37: the flag is the highest binary digit of V[x] and the result the doubled value mod 256; `execShl` does
not read y. -/
theorem shlShiftsVxLeft : Obligations.ShlShiftsVxLeft := by
  intro x y s
  obtain ⟨hflag, hdouble, hother, honly⟩ :=
    setResultAndFlag_spec s x BitVec.toNat (flagByte_shiftedOutLeft_toNat (s.getV x)) (byteShiftLeft_toNat (s.getV x))
  exact ⟨decodeWord_encode (i := .shl x y) rfl, _, rfl, hflag, hdouble, hother, honly, fun _ => rfl⟩

end Sys2Proof.Machine
end

section
/-! PROOF. Index and random (R86, R87): Annn is one write of I, which takes nnn with no check against memory bounds;
Cxkk is one write of V[x] with the latched byte masked, and a scheduled Step latches the byte it carries. -/

namespace Sys2Proof.Machine

theorem setI_frame (s : State) (w : Word) : onlyI s (s.setI w) := ⟨rfl, fun _ => rfl⟩

/-- A scheduled Step of a Running core executes the word at PC with the byte it carries, whatever that byte is (R52). -/
theorem step_scheduledStep_ok {s : State} {rnd : Byte} {rest : List HostTransaction} {w : Word}
    (hrun : s.run = .running) (hin : s.inputs = .step rnd :: rest) (hf : fetch s = .ok w) :
    step s = exec (decodeWord w) (State.advance { s with inputs := rest, rnd := rnd }) := by
  rw [step_scheduledStep hrun hin]
  exact cycle_ok ((fetch_ownFields s rest rnd s.draws).trans hf)

/-- Settles O38: I reads back the zero-extended nnn, and `setI_frame` is the rest. -/
theorem ldILoadsTheAddress : Obligations.LdILoadsTheAddress := fun nnn s =>
  ⟨decodeWord_encode (i := .ldI nnn) rfl, s.setI (zextNNN nnn), rfl, zextNNN_toNat nnn, setI_frame s _⟩

/-- Settles O39: V[x] reads back the masked byte, which under a scheduled Step is the byte that Step carries
(`step_scheduledStep_ok`). -/
theorem rndMasksTheInjectedByte : Obligations.RndMasksTheInjectedByte := by
  intro x kk s
  have hdecode : decodeWord (formatXK 0xC x kk) = .rnd x kk := decodeWord_encode (i := .rnd x kk) rfl
  refine ⟨hdecode, ⟨s.setV x (s.rnd &&& kk), rfl, fun j _ => ?_, setV_frame s x _⟩, fun rnd rest hrun hin hf => ?_⟩
  · rw [getV_setV_same, BitVec.getLsbD_and]
  · rw [step_scheduledStep_ok hrun hin hf, hdecode]
    exact ⟨_, rfl, getV_setV_same _ x _⟩

end Sys2Proof.Machine
end

section
/-! PROOF. Dxyn (R88, R89): the pixels a sprite inverts are those it covers (`covered_spriteTouches_iff`), so that the
laws of the compositor (`drawTouches_law`) are laws of `afterDraw`, the state Dxyn leaves with its rows in bounds. -/

namespace Sys2Proof.Machine

/-! ### The sprite -/

/-- The bits of the n-row sprite at mem[I], over the pixels they fall on when it is drawn at (V[x], V[y]). -/
def spriteTouches (s : State) (x y : Reg) (n : Nat) : List Touch :=
  touches (s.getV x).toNat (s.getV y).toNat 0 ((List.range n).map fun r => s.byteAt (s.effAddr r))

/-- A 1 bit of the sprite lies over a pixel just when the sprite covers it. -/
theorem covered_spriteTouches_iff (s : State) (x y : Reg) (n : Nat) (px : Col) (py : Row) :
    covered (spriteTouches s x y n) px py ↔ spriteCovers s x y n px py := by
  have row : ∀ r < n, ((List.range n).map fun r => s.byteAt (s.effAddr r)).getD r 0 = s.byteAt (s.effAddr r) :=
    fun r hr => by simp [hr]
  constructor
  · rintro ⟨t, ht, hbit, rfl, rfl⟩
    obtain ⟨r, hr, b, hb, hpx, hpy, ht⟩ := touches_row ht
    rw [List.length_map, List.length_range] at hr
    rw [ht, row r hr] at hbit
    refine ⟨r, b, hr, hb, hbit, congrArg Fin.val hpx, ?_⟩
    rw [hpy, Nat.zero_add]
    rfl
  · rintro ⟨r, b, hr, hb, hbit, hpx, hpy⟩
    refine ⟨_, touches_mem _ _ 0 _ r b (by simpa using hr) hb, ?_, Fin.ext hpx, Fin.ext ?_⟩
    · rwa [row r hr]
    · rw [Nat.zero_add]
      exact hpy

/-- A sprite has at most 15 rows, so no pixel lies under two of its bits. -/
theorem spriteTouches_pairwise (s : State) (x y : Reg) (n : Fin 16) :
    (spriteTouches s x y n).Pairwise Touch.apart := by
  apply touches_pairwise
  rw [List.length_map, List.length_range]
  omega

/-! ### The state after a draw -/

/-- The display with the sprite drawn on it, and the collision. -/
def drawn (s : State) (x y : Reg) (n : Nat) : Display × Bool := drawTouches (spriteTouches s x y n) (s.disp, false)

/-- The state Dxyn leaves when its rows are in bounds. -/
def afterDraw (s : State) (x y : Reg) (n : Nat) : State :=
  (s.setDisp (drawn s x y n).1).setFlag (drawn s x y n).2

theorem exec_drw_inside {x y : Reg} {n : Fin 16} {s : State} (inside : ∀ r < n.val, s.effAddr r ≤ 0xFFF) :
    exec (.drw x y n) s = .next (afterDraw s x y n) := by
  rw [exec, execDrw, readBlock_ok ((blockFits_iff s n).mpr inside)]
  simp only [drawSprite, drawRows_eq]
  rfl

/-- The draw inverts the pixels the sprite covers and no other, and collides just when one of those was lit. -/
theorem drawn_law (s : State) (x y : Reg) (n : Fin 16) :
    (∀ px py, spriteCovers s x y n px py → (drawn s x y n).1.pixel px py = !s.disp.pixel px py) ∧
    (∀ px py, ¬ spriteCovers s x y n px py → (drawn s x y n).1.pixel px py = s.disp.pixel px py) ∧
    ((drawn s x y n).2 = true ↔ ∃ px py, spriteCovers s x y n px py ∧ s.disp.pixel px py = true) := by
  have law := drawTouches_law _ (spriteTouches_pairwise s x y n) (s.disp, false)
  simpa only [drawn, covered_spriteTouches_iff, Bool.false_eq_true, false_or] using law

theorem afterDraw_pixel_covered {s : State} {x y : Reg} {n : Fin 16} {px : Col} {py : Row}
    (h : spriteCovers s x y n px py) : (afterDraw s x y n).disp.pixel px py = !s.disp.pixel px py := by
  obtain ⟨inverts, -, -⟩ := drawn_law s x y n
  exact inverts px py h

theorem afterDraw_pixel_uncovered {s : State} {x y : Reg} {n : Fin 16} {px : Col} {py : Row}
    (h : ¬ spriteCovers s x y n px py) : (afterDraw s x y n).disp.pixel px py = s.disp.pixel px py := by
  obtain ⟨-, keeps, -⟩ := drawn_law s x y n
  exact keeps px py h

theorem drawn_collision_iff (s : State) (x y : Reg) (n : Fin 16) :
    (drawn s x y n).2 = true ↔ ∃ px py, spriteCovers s x y n px py ∧ s.disp.pixel px py = true := by
  obtain ⟨-, -, collides⟩ := drawn_law s x y n
  exact collides

theorem afterDraw_vf (s : State) (x y : Reg) (n : Nat) :
    (afterDraw s x y n).getV vf = flagByte (drawn s x y n).2 :=
  getV_setV_same _ _ _

theorem afterDraw_vf_iff (s : State) (x y : Reg) (n : Fin 16) :
    (afterDraw s x y n).getV vf = 1 ↔ ∃ px py, spriteCovers s x y n px py ∧ s.disp.pixel px py = true := by
  rw [afterDraw_vf, ← drawn_collision_iff]
  cases (drawn s x y n).2 <;> decide

theorem getV_afterDraw_ne (s : State) (x y : Reg) (n : Nat) {r : Reg} (hr : r ≠ vf) :
    (afterDraw s x y n).getV r = s.getV r :=
  getV_setV_ne _ _ _ _ hr

/-- Settles O40: on rows in bounds, the laws of `afterDraw`; the fault is that of every instruction with data accesses
(O54). -/
theorem drwInvertsThePixelsItCovers : Obligations.DrwInvertsThePixelsItCovers := by
  intro x y n s
  refine ⟨decodeWord_encode (i := .drw x y n) rfl, fun inside => ?_,
    (outOfBoundsFaultsAtTheLowestAddress (.drw x y n) n s rfl).1⟩
  refine ⟨_, exec_drw_inside inside, fun _ _ => afterDraw_pixel_covered, fun _ _ => afterDraw_pixel_uncovered,
    (afterDraw_vf_iff s x y n).mpr, fun clear => ?_, fun r hr => getV_afterDraw_ne s x y n hr, rfl, fun _ => rfl⟩
  rw [afterDraw_vf, Bool.eq_false_iff.mpr (mt (drawn_collision_iff s x y n).mp clear)]
  rfl

/-! ### A second draw -/

theorem display_ext {d e : Display} (h : ∀ px py, d.pixel px py = e.pixel px py) : d = e :=
  Vector.ext fun px hpx => Vector.ext fun py hpy => h ⟨px, hpx⟩ ⟨py, hpy⟩

/-- After a draw that leaves its coordinates, the same sprite covers the same pixels. -/
theorem spriteCovers_afterDraw {s : State} {x y : Reg} (n : Nat) (hx : x ≠ vf) (hy : y ≠ vf) :
    spriteCovers (afterDraw s x y n) x y n = spriteCovers s x y n := by
  funext px py
  simp only [spriteCovers, getV_afterDraw_ne s x y n hx, getV_afterDraw_ne s x y n hy]
  rfl

/-- A covered pixel is inverted twice, and any other is left alone twice. -/
theorem afterDraw_twice_disp {s : State} {x y : Reg} (n : Fin 16) (hx : x ≠ vf) (hy : y ≠ vf) :
    (afterDraw (afterDraw s x y n) x y n).disp = s.disp := by
  refine display_ext fun px py => ?_
  have same := spriteCovers_afterDraw (s := s) n hx hy
  by_cases h : spriteCovers s x y n px py
  · rw [afterDraw_pixel_covered (same ▸ h), afterDraw_pixel_covered h, Bool.not_not]
  · rw [afterDraw_pixel_uncovered (same ▸ h), afterDraw_pixel_uncovered h]

/-- A covered pixel is lit after the first draw just when it was clear before it. -/
theorem afterDraw_twice_vf_iff {s : State} {x y : Reg} (n : Fin 16) (hx : x ≠ vf) (hy : y ≠ vf) :
    (afterDraw (afterDraw s x y n) x y n).getV vf = 1 ↔
      ∃ px py, spriteCovers s x y n px py ∧ s.disp.pixel px py = false := by
  rw [afterDraw_vf_iff, spriteCovers_afterDraw n hx hy]
  refine exists₂_congr fun px py => and_congr_right fun h => ?_
  rw [afterDraw_pixel_covered h, Bool.not_eq_true']

/-- Settles O41: the second draw reads the same sprite, and undoes the first (notes/assumptions/8.md). -/
theorem drawingTwiceRestoresTheDisplay : Obligations.DrawingTwiceRestoresTheDisplay := fun _ _ n _ hx hy inside =>
  ⟨_, _, exec_drw_inside inside, exec_drw_inside inside, afterDraw_twice_disp n hx hy, afterDraw_twice_vf_iff n hx hy⟩

end Sys2Proof.Machine
end

section
/-! PROOF. When a transaction is enabled (R115), and what the host's own transactions make of the run state, the report
log and the invariant (`host_effect`). -/

namespace Sys2Proof.Machine

/-! ### Enabledness -/

theorem enabled_step_iff {κ : Type} (b : Byte) (r : RunState) :
    enabled (.step b : Transaction κ) r = true ↔ r = .running := by
  cases r <;> simp [enabled]

theorem enabled_keyInput_iff {κ : Type} (h : κ) (r : RunState) :
    enabled (.keyInput h) r = true ↔ ∃ x, r = .waitingKey x := by
  cases r <;> simp [enabled]

theorem enabled_skip_iff {κ : Type} (r : RunState) :
    enabled (.skip : Transaction κ) r = true ↔ ∃ record, r = .faulted record := by
  cases r <;> simp [enabled]

theorem hostResult_notEnabled {κ : Type} {tr : Transaction κ} {s : State} (h : enabled tr s.run = false) :
    hostResult tr s = .notEnabled := by
  simp only [hostResult, h, Bool.false_eq_true, if_false]

/-- Settles O17: the three transactions with a condition by the run state, the others by definition; a transaction that is
not enabled by `step_disabled`, an empty schedule by `step_suspended` (notes/assumptions/2.md). -/
theorem disabledTransactionsHaveNoEffect : Obligations.DisabledTransactionsHaveNoEffect :=
  ⟨fun _ r => ⟨fun b => enabled_step_iff b r, fun h => enabled_keyInput_iff h r, enabled_skip_iff r, rfl, fun _ => rfl,
      fun _ => rfl, fun _ => rfl, rfl, fun _ => rfl⟩,
    fun _ _ _ hin hd => ⟨step_disabled hin hd, hostResult_notEnabled hd⟩,
    fun _ hin hrun => step_suspended hrun hin⟩

/-! ### The effect of the host's own transactions -/

/-- The two ways a KeyInput ends: with nothing changed, or with the wait completed (R122). -/
theorem keyInput_cases {κ : Type} [DecidableEq κ] (table : Vector κ 16) (h : κ) (s : State) :
    keyInput table h s = s ∨ ∃ x k, s.run = .waitingKey x ∧ mapKey table h = some k ∧
      keyInput table h s = (s.setV x (BitVec.ofNat 8 k.val)).setRun .running := by
  cases hrun : s.run with
  | waitingKey x =>
    cases hm : mapKey table h with
    | some k => exact .inr ⟨x, k, rfl, rfl, keyInput_mapped hrun hm⟩
    | none => exact .inl (keyInput_unmapped hrun hm)
  | running | faulted record => exact .inl (by simp only [keyInput, hrun])

/-- The transaction makes the core Running: a Skip, a Reset, or the KeyInput that completes a wait (R107, R122, R128). -/
def resumes {κ : Type} [DecidableEq κ] (table : Vector κ 16) (tr : Transaction κ) (s t : State) : Prop :=
  t.run = .running ∧ (tr = .skip ∨ tr = .reset ∨
    ∃ h x k, tr = .keyInput h ∧ s.run = .waitingKey x ∧ mapKey table h = some k ∧ t.getV x = BitVec.ofNat 8 k.val)

/-- What a host transaction other than Step makes of the run state, the log and the invariant's parts. -/
structure HostEffect {κ : Type} [DecidableEq κ] (table : Vector κ 16) (tr : Transaction κ) (s t : State) : Prop where
  run : t.run = s.run ∨ resumes table tr s t
  log : t.log = s.log
  memWf : s.memWf → t.memWf
  stackWf : s.stackWf → t.stackWf

theorem host_effect {κ : Type} [DecidableEq κ] {table : Vector κ 16} {tr : Transaction κ} {s t : State}
    (notStep : ∀ b, tr ≠ .step b) (h : applyTransaction table tr s = .next t) : HostEffect table tr s t := by
  cases tr with
  | step b => exact absurd rfl (notStep b)
  | tick | read c => cases h; exact ⟨.inl rfl, rfl, id, id⟩
  | setDown k | setUp k =>
    cases h
    rw [setKeyFlag_frame]
    exact ⟨.inl rfl, rfl, id, id⟩
  | keyInput k =>
    obtain rfl : keyInput table k s = t := Host.Outcome.next.inj h
    obtain e | ⟨x, j, hw, hm, e⟩ := keyInput_cases table k s
    · rw [e]
      exact ⟨.inl rfl, rfl, id, id⟩
    · rw [e]
      exact ⟨.inr ⟨rfl, .inr (.inr ⟨k, x, j, rfl, hw, hm, getV_setV_same s x _⟩)⟩, rfl, id, id⟩
  | skip => cases h; exact ⟨.inr ⟨rfl, .inl rfl⟩, rfl, id, id⟩
  | load bytes =>
    obtain rfl : load bytes s = t := Host.Outcome.next.inj h
    have hwf := load_wf bytes s
    rw [load_frame]
    generalize load bytes s = u at hwf ⊢
    exact ⟨.inl rfl, rfl, hwf, id⟩
  | reset =>
    cases h
    exact ⟨.inr ⟨rfl, .inr (.inl rfl)⟩, rfl, fun _ => (resetWith_inv s.params).memWf,
      fun _ => (resetWith_inv s.params).stackWf⟩

end Sys2Proof.Machine
end

section
/-! PROOF. Every action keeps the invariant (R18, R26, R102), a fault leaves the state before the step (R104), and what
ends a key wait, Faulted and the halt loop (R108, R134, R135). An instruction run is inverted in `ran_cases`, a host
transaction by `host_effect`. -/

namespace Sys2Proof.Machine

/-! ### An instruction run from a fetched word -/

/-- The word w run from S takes a fault it may raise from S itself, or is unmapped and warns, or has its ordinary
effect. -/
theorem ran_cases {S t : State} {w : Word} (h : exec (decodeWord w) S.advance = .next t) :
    (∃ f, mayRaise (decodeWord w) f ∧ t = takeFault (some w) f S) ∨
    (isUnmapped w ∧ t = reportUnmapped w S.advance) ∨ Ordinary (decodeWord w) S.advance t := by
  cases exec_cases h with
  | fault f may e =>
    rw [encode_decodeWord, undoAdvance_advance] at e
    exact .inl ⟨f, may, e⟩
  | warning hi e =>
    rw [encode_decodeWord] at e
    exact .inr (.inl ⟨hi, e⟩)
  | ordinary o => exact .inr (.inr o)

/-- An ordinary effect leaves a Running core Running, or waiting for a key. -/
theorem Ordinary.run_not_faulted {i : Instr} {s t : State} (o : Ordinary i s t) (hrun : s.run = .running)
    (record : FaultRecord) : t.run ≠ .faulted record := by
  obtain hr | ⟨x, -, hr⟩ := o.run
  · rw [hr, hrun]
    exact RunState.noConfusion
  · rw [hr]
    exact RunState.noConfusion

theorem latched_run {s S : State} (same : latched s S) : S.run = s.run := by
  rw [same]

theorem latched_pc {s S : State} (same : latched s S) : S.pc = s.pc := by
  rw [same]

theorem latched_fetch {s S : State} (same : latched s S) : fetch S = fetch s := by
  rw [same]
  exact fetch_ownFields s _ _ _

/-! ### The invariant -/

/-- The invariant of a state that reports nothing and is Faulted only as the state before it was. -/
theorem State.Inv.of_sameLog {s t : State} (inv : s.Inv) (memWf : t.memWf) (stackWf : t.stackWf)
    (run : ∀ record, t.run = .faulted record → s.run = .faulted record) (log : t.log = s.log) : t.Inv where
  memWf := memWf
  stackWf := stackWf
  faultLogged := fun record hr => log ▸ inv.faultLogged record (run record hr)
  reportsGenuine := log ▸ inv.reportsGenuine

/-- The invariant after one genuine report, which a core that the action faults must be faulted with. -/
theorem State.Inv.of_report {s t : State} (inv : s.Inv) {r : Report} (genuine : r.Genuine) (memWf : t.memWf)
    (stackWf : t.stackWf) (run : ∀ record, t.run = .faulted record → s.run = .faulted record ∨ r = .fault record)
    (log : t.log = s.log ++ [r]) : t.Inv where
  memWf := memWf
  stackWf := stackWf
  faultLogged := by
    intro record hr
    rw [log, List.mem_append, List.mem_singleton]
    exact (run record hr).imp (inv.faultLogged record) Eq.symm
  reportsGenuine := by
    intro q hq
    rw [log, List.mem_append, List.mem_singleton] at hq
    obtain hq | rfl := hq
    · exact inv.reportsGenuine q hq
    · exact genuine

theorem latched_inv {s S : State} (same : latched s S) (inv : s.Inv) : S.Inv := by
  rw [same]
  exact inv.of_sameLog inv.memWf inv.stackWf (fun _ => id) rfl

theorem advance_inv {s : State} (inv : s.Inv) : s.advance.Inv :=
  inv.of_sameLog inv.memWf inv.stackWf (fun _ => id) rfl

theorem takeFault_inv {s : State} {opcode : Option Word} {f : Fault} (inv : s.Inv)
    (genuine : (Report.fault ⟨f, opcode, s.pc⟩).Genuine) : (takeFault opcode f s).Inv :=
  inv.of_report genuine inv.memWf inv.stackWf (fun _ hr => .inr (congrArg Report.fault (RunState.faulted.inj hr))) rfl

theorem reportUnmapped_inv {s : State} {w : Word} (inv : s.Inv) (unmapped : isUnmapped w) : (reportUnmapped w s).Inv :=
  inv.of_report (r := .warning w (s.pc - 2)) unmapped inv.memWf inv.stackWf (fun _ => .inl) rfl

/-- A fetch faults at one of its own two bytes, out of bounds (R53). -/
theorem fetchFault_genuine {s : State} {f : Fault} (hf : fetch s = .error f) :
    (Report.fault ⟨f, none, s.pc⟩).Genuine := by
  obtain ⟨-, e⟩ | ⟨hpc, e⟩ | ⟨hpc, e⟩ := fetch_cases s
  · rw [e] at hf
    cases hf
  · rw [e] at hf
    cases hf
    exact ⟨_, rfl, hpc, .inl rfl⟩
  · rw [e] at hf
    cases hf
    exact ⟨_, rfl, hpc.ge, .inr rfl⟩

theorem ran_inv {S t : State} {w : Word} (inv : S.Inv) (hrun : S.run = .running)
    (h : exec (decodeWord w) S.advance = .next t) : t.Inv := by
  obtain ⟨f, may, rfl⟩ | ⟨unmapped, rfl⟩ | o := ran_cases h
  · exact takeFault_inv inv may
  · exact reportUnmapped_inv (advance_inv inv) unmapped
  · exact (advance_inv inv).of_sameLog (o.memWf inv.memWf) (o.stackWf inv.stackWf)
      (fun record hr => absurd hr (o.run_not_faulted hrun record)) o.log

theorem HostEffect.inv {κ : Type} [DecidableEq κ] {table : Vector κ 16} {tr : Transaction κ} {s t : State}
    (e : HostEffect table tr s t) (inv : s.Inv) : t.Inv := by
  refine inv.of_sameLog (e.memWf inv.memWf) (e.stackWf inv.stackWf) (fun record hr => ?_) e.log
  obtain same | ⟨running, -⟩ := e.run
  · exact same ▸ hr
  · rw [running] at hr
    cases hr

/-- Settles O12: by the ways a step can end; a report it logs is that of a fetch fault, of a fault the word may raise, or
the warning of an unmapped word. -/
theorem everyStepKeepsTheInvariant : Obligations.EveryStepKeepsTheInvariant := by
  intro s t inv h
  cases step_cases h with
  | idle hrun hin e => exact e ▸ inv
  | disabled tr rest hin hd e =>
    subst e
    exact latched_inv rfl inv
  | fetchFault S f same hrun hf e =>
    subst e
    exact takeFault_inv (latched_inv same inv) (fetchFault_genuine hf)
  | ran S w same next hf e =>
    obtain ⟨hrun, -, -⟩ := next
    exact ran_inv (latched_inv same inv) ((latched_run same).trans hrun) e
  | host tr rest hin he notStep e =>
    have inv' : State.Inv { s with inputs := rest } := latched_inv rfl inv
    exact (host_effect notStep e).inv inv'

/-! ### Faults -/

/-- A fault taken from S is one taken from s, but for the model's own fields. -/
theorem takeFault_latched {s S : State} (same : latched s S) (opcode : Option Word) (f : Fault) :
    takeFault opcode f S = { s with
      inputs := S.inputs, rnd := S.rnd, draws := S.draws
      run := .faulted ⟨f, opcode, s.pc⟩, log := s.log ++ [.fault ⟨f, opcode, s.pc⟩] } := by
  unfold takeFault
  rw [same]
  rfl

/-- A host transaction leaves a Running core Running: only a Step makes one Faulted. -/
theorem HostEffect.run_not_faulted {κ : Type} [DecidableEq κ] {table : Vector κ 16} {tr : Transaction κ} {s t : State}
    (e : HostEffect table tr s t) (hrun : s.run = .running) (record : FaultRecord) : t.run ≠ .faulted record := by
  obtain same | ⟨running, -⟩ := e.run
  · rw [same, hrun]
    exact RunState.noConfusion
  · rw [running]
    exact RunState.noConfusion

/-- A step that ends a Running core Faulted took a fault of the fetch, or one the fetched word may raise. -/
theorem step_fault_cases {s t : State} {record : FaultRecord} (hrun : s.run = .running) (h : step s = .next t)
    (hf : t.run = .faulted record) :
    ∃ S f, latched s S ∧
      (fetch s = .error f ∧ t = takeFault none f S ∨
        ∃ w, fetch s = .ok w ∧ mayRaise (decodeWord w) f ∧ t = takeFault (some w) f S) := by
  cases step_cases h with
  | idle hn hin e => exact absurd hrun hn
  | disabled tr rest hin hd e =>
    subst e
    exact absurd (hrun.symm.trans hf) RunState.noConfusion
  | fetchFault S f same hrun hfetch e => exact ⟨S, f, same, .inl ⟨latched_fetch same ▸ hfetch, e⟩⟩
  | ran S w same next hfetch e =>
    obtain ⟨f, may, e⟩ | ⟨-, rfl⟩ | o := ran_cases e
    · exact ⟨S, f, same, .inr ⟨w, latched_fetch same ▸ hfetch, may, e⟩⟩
    · have hS : S.run = .faulted record := hf
      rw [latched_run same, hrun] at hS
      cases hS
    · exact absurd hf (o.run_not_faulted ((latched_run same).trans hrun) record)
  | host tr rest hin he notStep e =>
    exact absurd hf ((host_effect (s := { s with inputs := rest }) notStep e).run_not_faulted hrun record)

/-- Settles O8: the fault is taken from the state the step's byte is latched in, which differs from the state before the
step in the model's own fields alone. -/
theorem faultLeavesTheStateBeforeTheStep : Obligations.FaultLeavesTheStateBeforeTheStep := by
  intro s t record hrun h hf
  obtain ⟨S, f, same, ⟨hfetch, rfl⟩ | ⟨w, hfetch, may, rfl⟩⟩ := step_fault_cases hrun h hf
  · obtain rfl := RunState.faulted.inj hf
    rw [latched_pc same]
    refine ⟨takeFault_latched same none f, rfl, fun w hw => ?_, fun g hg => ?_⟩
    · rw [hfetch] at hw
      cases hw
    · rw [hfetch] at hg
      cases hg
      exact ⟨rfl, rfl⟩
  · obtain rfl := RunState.faulted.inj hf
    rw [latched_pc same]
    refine ⟨takeFault_latched same (some w) f, rfl, fun u hu => ?_, fun g hg => ?_⟩
    · rw [hfetch] at hu
      cases hu
      exact ⟨rfl, may⟩
    · rw [hfetch] at hg
      cases hg

/-! ### The ways out of a suspended run state -/

/-- An action of a core that is not Running leaves its run state and logs nothing, or is an enabled host transaction that
resumes it. -/
theorem step_suspended_cases {s t : State} (hrun : s.run ≠ .running) (h : step s = .next t) :
    t.log = s.log ∧ (t.run = s.run ∨ ∃ tr, hostNext s tr ∧ enabled tr s.run = true ∧ resumes s.params.keyTable tr s t) := by
  cases step_cases h with
  | idle hn hin e =>
    subst e
    exact ⟨rfl, .inl rfl⟩
  | disabled tr rest hin hd e =>
    subst e
    exact ⟨rfl, .inl rfl⟩
  | fetchFault S f same hr hf e => exact absurd hr hrun
  | ran S w same next hf e =>
    obtain ⟨hr, -, -⟩ := next
    exact absurd hr hrun
  | host tr rest hin he notStep e =>
    obtain ⟨run, log, -, -⟩ := host_effect (s := { s with inputs := rest }) notStep e
    exact ⟨log, run.imp id fun hr => ⟨tr, ⟨rest, hin⟩, he, hr⟩⟩

/-- Settles O16: of the transactions that resume a core, KeyInput is not enabled while it is Faulted. -/
theorem faultedEndsOnlyBySkipOrReset : Obligations.FaultedEndsOnlyBySkipOrReset := by
  intro s t record hrun h
  obtain ⟨log, same | ⟨tr, next, he, running, rfl | rfl | ⟨k, x, j, rfl, hw, -⟩⟩⟩ :=
    step_suspended_cases (by rw [hrun]; exact RunState.noConfusion) h
  · exact ⟨log, fun hne => absurd (same.trans hrun) hne⟩
  · exact ⟨log, fun _ => ⟨running, .inl next⟩⟩
  · exact ⟨log, fun _ => ⟨running, .inr next⟩⟩
  · rw [hrun] at hw
    cases hw

/-- Settles O15: of the transactions that resume a core, Skip is not enabled while it waits. -/
theorem keyWaitEndsOnlyByMappedKeyOrReset : Obligations.KeyWaitEndsOnlyByMappedKeyOrReset := by
  intro s t x hrun h hne
  obtain ⟨-, same | ⟨tr, next, he, running, rfl | rfl | ⟨k, y, j, rfl, hw, hm, hv⟩⟩⟩ :=
    step_suspended_cases (by rw [hrun]; exact RunState.noConfusion) h
  · exact absurd (same.trans hrun) hne
  · rw [hrun] at he
    cases he
  · exact ⟨running, .inl next⟩
  · obtain rfl := RunState.waitingKey.inj (hw.symm.trans hrun)
    exact ⟨running, .inr ⟨k, j, next, hm, hv⟩⟩

/-! ### The halt loop -/

/-- A cycle of a halt loop is a jump to PC, which changes nothing (R63). -/
theorem cycle_haltLoop {s : State} (h : s.haltLoop) : cycle s = .next s := by
  obtain ⟨-, nnn, hf, hself⟩ := h
  have hjp : decodeWord (formatA 0x1 nnn) = .jp nnn := decodeWord_encode (i := .jp nnn) rfl
  have hpc : State.setPc s.advance (zextNNN nnn) = s := by
    rw [hself]
    rfl
  rw [cycle_ok hf, hjp]
  exact congrArg Host.Outcome.next hpc

theorem haltLoop_ownFields {s : State} (h : s.haltLoop) (inputs : List HostTransaction) (rnd : Byte) (draws : Nat) :
    State.haltLoop { s with inputs := inputs, rnd := rnd, draws := draws } := by
  obtain ⟨hrun, nnn, hf, hself⟩ := h
  exact ⟨hrun, nnn, (fetch_ownFields s inputs rnd draws).trans hf, hself⟩

/-- Settles O18: a Step is a cycle from the state its byte is latched in, which is a halt loop as well
(notes/assumptions/2.md). -/
theorem selfJumpRunsForEver : Obligations.SelfJumpRunsForEver := by
  intro s h hin
  have ⟨hrun, _⟩ := h
  obtain hin | ⟨rnd, rest, hin⟩ := hin
  · have halt := haltLoop_ownFields h s.inputs (Config.freeRnd s.draws) (s.draws + 1)
    exact ⟨_, (step_freeStep hrun hin).trans (cycle_haltLoop halt), halt, by rw [hin]; rfl⟩
  · have halt := haltLoop_ownFields h rest rnd s.draws
    exact ⟨_, (step_scheduledStep hrun hin).trans (cycle_haltLoop halt), halt, by rw [hin]; rfl⟩

end Sys2Proof.Machine
end

section
/-! PROOF. The key skips (R90-R92): with V[x] at most 15 both are a `skipIf` on the key flag it names, and above 15 both
take the fault of an invalid index. -/

namespace Sys2Proof.Machine

theorem keyOperand_key {s : State} {x : Reg} {k : Key} (h : (s.getV x).toNat = k.val) : keyOperand s x = .ok k := by
  rw [keyOperand_ok (h ▸ k.isLt)]
  exact congrArg Except.ok (Fin.ext h)

theorem execSkp_key {s : State} {x : Reg} {k : Key} (h : (s.getV x).toNat = k.val) :
    execSkp x s = .next (s.skipIf s.keys[k]) := by
  rw [execSkp, keyOperand_key h]
  rfl

theorem execSknp_key {s : State} {x : Reg} {k : Key} (h : (s.getV x).toNat = k.val) :
    execSknp x s = .next (s.skipIf (!s.keys[k])) := by
  rw [execSknp, keyOperand_key h]
  rfl

theorem execSkp_invalidKey {s : State} {x : Reg} (h : 0x0F < (s.getV x).toNat) :
    execSkp x s = .next (afterFault (encode (.skp x)) (.invalidRegisterOrKeyIndex (s.getV x).toNat) s) := by
  rw [execSkp, keyOperand_error (Nat.not_lt.mpr h)]
  rfl

theorem execSknp_invalidKey {s : State} {x : Reg} (h : 0x0F < (s.getV x).toNat) :
    execSknp x s = .next (afterFault (encode (.sknp x)) (.invalidRegisterOrKeyIndex (s.getV x).toNat) s) := by
  rw [execSknp, keyOperand_error (Nat.not_lt.mpr h)]
  rfl

/-- A skip on the negated flag is taken just when the flag is clear. -/
theorem skipIf_not_pc_toNat (s : State) (c : Bool) :
    (s.skipIf (!c)).pc.toNat = if c = true then s.pc.toNat else (s.pc.toNat + 2) % 65536 :=
  (skipIf_pc_toNat (by rw [Bool.not_eq_true', Bool.not_eq_true])).trans (ite_not (c = true) _ _)

/-- Settles O42: the two effects of a valid index, and the two faults of an invalid one. -/
theorem keySkipsReadTheKeyFlag : Obligations.KeySkipsReadTheKeyFlag := fun x s =>
  ⟨decodeWord_encode (i := .skp x) rfl, decodeWord_encode (i := .sknp x) rfl,
    fun _ hk => ⟨⟨_, execSkp_key hk, onlyPc_skipIf s _, skipIf_pc_toNat Iff.rfl⟩,
      ⟨_, execSknp_key hk, onlyPc_skipIf s _, skipIf_not_pc_toNat s _⟩⟩,
    fun h => ⟨execSkp_invalidKey h, execSknp_invalidKey h⟩⟩

end Sys2Proof.Machine
end

section
/-! PROOF. The timer transfers and the index arithmetic of the F family (R93-R95, R97, R98): each is one write of one
component. -/

namespace Sys2Proof.Machine

theorem zextByte_toNat (b : Byte) : (zextByte b).toNat = b.toNat :=
  BitVec.toNat_setWidth_of_le (by decide)

/-- The address of a glyph does not wrap: it is at most 5 · 0xFF (R98). -/
theorem zextByte_mul_five_toNat (b : Byte) : (zextByte b * 5).toNat = b.toNat * 5 := by
  have hmul : (zextByte b * 5).toNat = b.toNat * 5 % 65536 := by
    rw [BitVec.toNat_mul, zextByte_toNat]
    rfl
  omega

/-- Settles O43: each component written reads back, and `setV_frame` is the rest of Fx07. -/
theorem timerTransfers : Obligations.TimerTransfers := fun x s =>
  ⟨⟨decodeWord_encode (i := .ldVxDt x) rfl, decodeWord_encode (i := .ldDtVx x) rfl,
      decodeWord_encode (i := .ldStVx x) rfl⟩,
    ⟨_, rfl, getV_setV_same s x s.dt, setV_frame s x s.dt⟩, ⟨_, rfl, rfl, rfl, fun _ => rfl⟩,
    ⟨_, rfl, rfl, rfl, fun _ => rfl⟩⟩

/-- Settles O49: the 16-bit sum wraps mod 2^16, and `setI_frame` is the rest. -/
theorem addIWrapsWithoutFlag : Obligations.AddIWrapsWithoutFlag := by
  intro x s
  have hsum : (s.i + zextByte (s.getV x)).toNat = (s.i.toNat + (s.getV x).toNat) % 65536 := by
    rw [BitVec.toNat_add, zextByte_toNat]
  exact ⟨decodeWord_encode (i := .addIVx x) rfl, _, rfl, hsum, setI_frame s _⟩

/-- Settles O50: the product does not wrap, and `setI_frame` is the rest. -/
theorem ldFPointsAtTheGlyph : Obligations.LdFPointsAtTheGlyph := fun x s =>
  ⟨decodeWord_encode (i := .ldFVx x) rfl, _, rfl, zextByte_mul_five_toNat (s.getV x), setI_frame s _⟩

end Sys2Proof.Machine
end

section
/-! PROOF. BCD and block transfer (R99-R101): Fx33 and Fx55 store a block at I and Fx65 loads one, each all or nothing; the
faults are those of every instruction with data accesses (O54). -/

namespace Sys2Proof.Machine

/-- A block from I on fits when its last address is in bounds. -/
theorem blockFits_of_last {s : State} {last : Nat} (h : s.effAddr last ≤ 0xFFF) :
    blockFits (s.effAddr 0) (last + 1) := by
  rw [blockFits_iff]
  intro j hj
  simp only [State.effAddr] at h ⊢
  omega

/-- The fault of an instruction with `last + 1` accesses at its lowest address out of bounds. -/
theorem exec_faultsAtLowest {i : Instr} {last : Nat} (hi : accessCount i = some (last + 1)) (s : State) :
    ∀ j ≤ last, 0xFFF < s.effAddr j → (∀ k < j, s.effAddr k ≤ 0xFFF) →
      exec i s = .next (afterFault (encode i) (.memoryOutOfBounds (s.effAddr j)) s) := by
  obtain ⟨faults, -⟩ := outOfBoundsFaultsAtTheLowestAddress i (last + 1) s hi
  exact fun j hj => faults j (Nat.lt_succ_of_le hj)

/-! ### Stores -/

/-- A block stored at I stands at I, I + 1, ... -/
theorem byteAt_store_effAddr {s : State} {bytes : List Byte} {j : Nat} (hw : s.memWf) (hj : j < bytes.length)
    (fits : blockFits (s.effAddr 0) bytes.length) (d : Byte) :
    (s.store (s.effAddr 0) bytes).byteAt (s.effAddr j) = bytes.getD j d :=
  byteAt_store_inside hw hj (fits.resolve_left (Nat.ne_zero_of_lt hj)) d

theorem onlyBytes_store (s : State) (base : Nat) (bytes : List Byte) :
    onlyBytes base bytes.length s (s.store base bytes) :=
  ⟨rfl, fun _ => byteAt_store_outside s⟩

theorem execLdBVx_inside {x : Reg} {s : State} (h : s.effAddr 2 ≤ 0xFFF) :
    execLdBVx x s = .next (s.store (s.effAddr 0) (bcdDigits (s.getV x))) :=
  congrArg (conclude _ s) (writeBlock_ok (bytes := bcdDigits (s.getV x)) (blockFits_of_last h))

/-- A number below 256, as a digit or a key index is, stands in a byte as itself. -/
theorem byteOfNat_toNat {n : Nat} (h : n < 256) : (BitVec.ofNat 8 n).toNat = n :=
  (BitVec.toNat_ofNat n 8).trans (Nat.mod_eq_of_lt h)

/-- Settles O51: the digits as they stand in the stored block, each as a number. -/
theorem ldBStoresTheDigits : Obligations.LdBStoresTheDigits := by
  intro x s
  refine ⟨decodeWord_encode (i := .ldBVx x) rfl, fun hw h => ?_, exec_faultsAtLowest (i := .ldBVx x) rfl s⟩
  have hv : (s.getV x).toNat < 256 := (s.getV x).isLt
  have digit (j : Nat) (hj : j < 3) : (s.store (s.effAddr 0) (bcdDigits (s.getV x))).byteAt (s.effAddr j) =
      (bcdDigits (s.getV x)).getD j 0 :=
    byteAt_store_effAddr (bytes := bcdDigits (s.getV x)) hw hj (blockFits_of_last h) 0
  refine ⟨_, execLdBVx_inside h, ?_, ?_, ?_, onlyBytes_store s _ (bcdDigits (s.getV x))⟩
  · rw [digit 0 (by decide)]
    exact byteOfNat_toNat (by omega)
  · rw [digit 1 (by decide)]
    exact byteOfNat_toNat (by omega)
  · rw [digit 2 (by decide)]
    exact byteOfNat_toNat (by omega)

theorem execLdMemVx_inside {x : Reg} {s : State} (h : s.effAddr x.val ≤ 0xFFF) :
    execLdMemVx x s = .next (s.store (s.effAddr 0) (s.getVs x)) := by
  have fits := blockFits_of_last h
  rw [← getVs_length s x] at fits
  exact congrArg (conclude _ s) (writeBlock_ok fits)

theorem byteAt_store_getVs {x r : Reg} {s : State} (hw : s.memWf) (h : s.effAddr x.val ≤ 0xFFF) (hr : r ≤ x) :
    (s.store (s.effAddr 0) (s.getVs x)).byteAt (s.effAddr r.val) = s.getV r := by
  have fits := blockFits_of_last h
  rw [← getVs_length s x] at fits
  have hlt : r.val < (s.getVs x).length := getVs_length s x ▸ Nat.lt_succ_of_le hr
  rw [byteAt_store_effAddr hw hlt fits 0, getVs_getD s x r 0 hr]

/-- Settles O52: register j stands at I + j of the stored block. -/
theorem ldMemStoresTheRegisters : Obligations.LdMemStoresTheRegisters := by
  intro x s
  refine ⟨decodeWord_encode (i := .ldMemVx x) rfl, fun hw h => ?_, exec_faultsAtLowest (i := .ldMemVx x) rfl s⟩
  have frame := onlyBytes_store s (s.effAddr 0) (s.getVs x)
  rw [getVs_length] at frame
  exact ⟨_, execLdMemVx_inside h, fun _ => byteAt_store_getVs hw h, frame⟩

/-! ### Loads -/

/-- V[0], ..., V[x] take the bytes from I on. -/
def loaded (s : State) (x : Reg) : State := s.setVs ((List.range (x.val + 1)).map fun j => s.byteAt (s.effAddr j))

theorem execLdVxMem_inside {x : Reg} {s : State} (h : s.effAddr x.val ≤ 0xFFF) :
    execLdVxMem x s = .next (loaded s x) := by
  rw [execLdVxMem, readBlock_ok (blockFits_of_last h)]
  rfl

theorem getV_loaded (s : State) (x r : Reg) :
    (loaded s x).getV r = if r ≤ x then s.byteAt (s.effAddr r.val) else s.getV r := by
  rw [loaded, getV_setVs, List.getD_eq_getElem?_getD]
  by_cases h : r ≤ x
  · have hlt : r.val < x.val + 1 := Nat.lt_succ_of_le h
    simp [h, hlt]
  · have hge : ¬ r.val < x.val + 1 := fun hlt => h (Nat.le_of_lt_succ hlt)
    simp [h, hge]

/-- Settles O53: the registers after the load are those of `getV_loaded`. -/
theorem ldVxMemLoadsTheRegisters : Obligations.LdVxMemLoadsTheRegisters := fun x s =>
  ⟨decodeWord_encode (i := .ldVxMem x) rfl, fun h => ⟨_, execLdVxMem_inside h, getV_loaded s x, rfl, fun _ => rfl⟩,
    exec_faultsAtLowest (i := .ldVxMem x) rfl s⟩

/-- Settles O55: Fx65 reads at I + r the byte that Fx55 stored there, which is V[r] (`byteAt_store_getVs`). -/
theorem storeThenLoadRestoresTheRegisters : Obligations.StoreThenLoadRestoresTheRegisters := by
  intro x s t m hw h hstore hmem hi
  obtain rfl := Host.Outcome.next.inj ((execLdMemVx_inside h).symm.trans hstore)
  have haddr (j : Nat) : m.effAddr j = s.effAddr j := congrArg (·.toNat + j) hi
  refine ⟨loaded m x, execLdVxMem_inside (haddr x.val ▸ h), fun r hr => ?_, fun r hr => ?_⟩
  · rw [getV_loaded, if_pos hr, haddr, hmem, byteAt_store_getVs hw h hr]
  · rw [getV_loaded, if_neg (not_le.mpr hr)]

end Sys2Proof.Machine
end

section
/-! PROOF. The key wait (R96, R121, R122): Fx0A suspends the core, and a KeyInput that the table maps completes the wait
(`keyInput_completes`), in `step` as for any type of host keys. -/

namespace Sys2Proof.Machine

/-- The lookup answers the lowest entry that is the host key (R121). -/
theorem mapKey_lowest {κ : Type} [DecidableEq κ] {table : Vector κ 16} {h : κ} {k : Key} (hk : table[k] = h)
    (lower : ∀ j : Key, j < k → table[j] ≠ h) : mapKey table h = some k := by
  rw [mapKey, List.find?_eq_some_iff_getElem]
  refine ⟨decide_eq_true hk, k.val, by simp, by simp, fun j hj => ?_⟩
  have hne := lower ⟨j, hj.trans k.isLt⟩ hj
  simpa using hne

/-- A mapped KeyInput leaves the key in V[x], makes the core Running, and changes nothing else. -/
theorem keyInput_completes {κ : Type} [DecidableEq κ] {table : Vector κ 16} {h : κ} {s : State} {x : Reg} {k : Key}
    (hw : s.run = .waitingKey x) (hm : mapKey table h = some k) :
    (keyInput table h s).getV x = BitVec.ofNat 8 k.val ∧
      (∀ r, r ≠ x → (keyInput table h s).getV r = s.getV r) ∧
      keyInput table h s = { s with v := (keyInput table h s).v, run := .running } := by
  rw [keyInput_mapped hw hm]
  exact ⟨getV_setV_same s x _, fun r hr => getV_setV_ne s x r _ hr, rfl⟩

theorem step_keyInput {s : State} {h : Config.HostKey} {rest : List HostTransaction} {x : Reg}
    (hw : s.run = .waitingKey x) (hin : s.inputs = .keyInput h :: rest) :
    step s = .next (keyInput s.params.keyTable h { s with inputs := rest }) :=
  step_enabled hin ((enabled_keyInput_iff h s.run).mpr ⟨x, hw⟩)

/-- Settles O45: the lookup by `mapKey_lowest`, the effect by `keyInput_completes`. -/
theorem keyInputCompletesTheWait : Obligations.KeyInputCompletesTheWait := by
  refine ⟨fun κ _ table h s x hw => ⟨fun k hk lower => ?_, fun none => ?_⟩, fun _ _ _ _ => step_keyInput⟩
  · have hm := mapKey_lowest hk lower
    exact ⟨hm, keyInput_completes hw hm⟩
  · have hm := mapKey_eq_none_iff.mpr none
    exact ⟨hm, keyInput_unmapped hw hm⟩

/-- Settles O44: Fx0A writes the run state alone, and the KeyInput after it is `step_keyInput`. -/
theorem keyReadWaitsForAMappedKey : Obligations.KeyReadWaitsForAMappedKey := by
  intro x s
  refine ⟨decodeWord_encode (i := .ldVxK x) rfl, ⟨_, rfl, rfl, rfl, fun _ => rfl⟩, fun h rest hw hin => ?_⟩
  have hw' : State.run { s with inputs := rest } = .waitingKey x := hw
  refine ⟨fun k hm => ⟨_, step_keyInput hw hin, ?_⟩, fun hm => ?_⟩
  · obtain ⟨hx, hother, hframe⟩ := keyInput_completes hw' hm
    refine ⟨?_, hother, hframe⟩
    rw [hx]
    exact byteOfNat_toNat (k.isLt.trans (by decide))
  · rw [step_keyInput hw hin, keyInput_unmapped hw' hm]

end Sys2Proof.Machine
end

section
/-! PROOF. The host's transactions in `step` (R107, R116-R120, R128, R129), and the warning of an unmapped word (R105). -/

namespace Sys2Proof.Machine

/-! ### Tick and the key flags -/

theorem tickTimer_toNat (b : Byte) : (tickTimer b).toNat = b.toNat - 1 := by
  unfold tickTimer
  split
  · next h => rw [h]; rfl
  · next h => bv_omega

/-- Settles O47: each timer by `tickTimer_toNat`. -/
theorem tickDecrementsToZero : Obligations.TickDecrementsToZero := fun s _ hin =>
  ⟨_, step_enabled hin rfl, tickTimer_toNat s.dt, tickTimer_toNat s.st, rfl⟩

theorem step_keyFlag {s : State} {rest : List HostTransaction} {n : Nat} {down : Bool} {tr : HostTransaction}
    (htr : tr = if down then .setDown n else .setUp n) (hin : s.inputs = tr :: rest) :
    step s = .next (setKeyFlag n down { s with inputs := rest }) ∧ hostResult tr s = keyFlagResult n := by
  cases down with
  | true | false =>
    subst htr
    exact ⟨step_enabled hin rfl, rfl⟩

theorem keys_setKey (s : State) (k j : Key) (down : Bool) :
    (s.setKey k down).keys[j] = if j = k then down else s.keys[j] := by
  simp [Vector.getElem_set, Fin.ext_iff, eq_comm]

/-- Settles O48: SetDown and SetUp are one key flag write, by whether the key is valid. -/
theorem keyFlagsAreSetAndCleared : Obligations.KeyFlagsAreSetAndCleared := by
  intro s rest n down tr htr hin
  obtain ⟨hstep, hresult⟩ := step_keyFlag htr hin
  rw [hstep, hresult]
  refine ⟨?_, fun hn => ?_⟩
  · rintro k rfl
    rw [setKeyFlag_valid k.isLt]
    exact ⟨_, rfl, fun j => keys_setKey _ k j down, rfl, if_pos k.isLt⟩
  · have hn : ¬ n < 16 := Nat.not_lt.mpr hn
    rw [setKeyFlag_invalid hn]
    exact ⟨rfl, if_neg hn⟩

/-! ### Skip, Load, Reset and Read -/

/-- Settles O57: Skip is the advance and one write of the run state. -/
theorem skipPassesTheFaultingOpcode : Obligations.SkipPassesTheFaultingOpcode := fun s _ record hrun hin =>
  ⟨_, step_enabled hin ((enabled_skip_iff s.run).mpr ⟨record, hrun⟩), BitVec.toNat_add s.pc 2, rfl, rfl⟩

theorem loadTooLarge_eq_false {bytes : List Byte} (h : bytes.length + 0x200 < 4096) : loadTooLarge bytes = false :=
  Bool.eq_false_iff.mpr (mt (loadTooLarge_iff bytes).mp (Nat.not_le_of_lt h))

theorem hostResult_load (bytes : List Byte) (s : State) : hostResult (.load bytes : HostTransaction) s =
    if loadTooLarge bytes then .error .loadTooLarge bytes.length else .done := if_pos rfl

/-- A program that fits stands at 0x200 on. -/
theorem byteAt_load {bytes : List Byte} {s : State} (hw : s.memWf) (h : bytes.length + 0x200 < 4096)
    (j : Fin bytes.length) : (load bytes s).byteAt (0x200 + j.val) = bytes[j] := by
  have fits : progBase + bytes.length ≤ memSize := by
    simp only [progBase, memSize]
    omega
  rw [load_accepted (loadTooLarge_eq_false h)]
  exact (byteAt_store_inside hw j.isLt fits 0).trans (List.getD_eq_getElem bytes 0 j.isLt)

/-- Bytes outside the program keep their values. -/
theorem byteAt_load_outside {bytes : List Byte} {a : Nat} (s : State) (h : bytes.length + 0x200 < 4096)
    (outside : a < 0x200 ∨ 0x200 + bytes.length ≤ a) : (load bytes s).byteAt a = s.byteAt a := by
  rw [load_accepted (loadTooLarge_eq_false h)]
  exact byteAt_store_outside s outside

theorem load_pc {bytes : List Byte} (s : State) (h : bytes.length + 0x200 < 4096) : (load bytes s).pc = 0x200 := by
  rw [load_accepted (loadTooLarge_eq_false h)]
  rfl

/-- Settles O58: `load_refused` on an image too large; else where the program stands, and `load_frame`. -/
theorem loadCopiesTheProgram : Obligations.LoadCopiesTheProgram := by
  intro s rest bytes hin
  have hstep : step s = .next (load bytes { s with inputs := rest }) := step_enabled hin rfl
  rw [hstep, hostResult_load]
  refine ⟨fun h => ?_, fun h hw => ?_⟩
  · have hlarge := (loadTooLarge_iff bytes).mpr h
    rw [load_refused hlarge, hlarge]
    exact ⟨rfl, rfl⟩
  · refine ⟨_, rfl, byteAt_load (s := { s with inputs := rest }) hw h, load_pc _ h, fun a => ?_, load_frame _ _, ?_⟩
    · exact byteAt_load_outside { s with inputs := rest } h
    · rw [loadTooLarge_eq_false h]
      rfl

/-- Settles O59: a Reset is `resetCore`, from a state whose schedule has moved on (notes/assumptions/3.md). -/
theorem resetReinitialisesAndKeepsTheLog : Obligations.ResetReinitialisesAndKeepsTheLog := fun s rest hin =>
  (step_enabled hin rfl).trans (congrArg Host.Outcome.next (resetCore_frame { s with inputs := rest }))

/-- Settles O60: a Read changes nothing, and gives back `readComponent`, by the component. -/
theorem readReturnsTheComponent : Obligations.ReadReturnsTheComponent :=
  ⟨fun _ _ _ hin => ⟨step_enabled hin rfl, rfl⟩,
    fun _ => ⟨fun _ => rfl, fun _ => rfl, rfl, rfl, rfl, fun _ => rfl, rfl, rfl, fun _ => rfl, fun _ _ => rfl, rfl, rfl⟩⟩

/-! ### Unmapped words -/

theorem exec_unmapped {i : Instr} (h : (∃ nnn, i = .sys nnn) ∨ ∃ w, i = .unmapped w) (s : State) :
    exec i s = .next (reportUnmapped (encode i) s) := by
  obtain ⟨nnn, rfl⟩ | ⟨w, rfl⟩ := h
  · rfl
  · rfl

/-- Settles O56: the execute phase is `reportUnmapped`, and the record is that of its warning. -/
theorem unmappedWordOnlyWarns : Obligations.UnmappedWordOnlyWarns := fun i s h =>
  ⟨_, .warning (encode i) (s.pc - 2), exec_unmapped h s, rfl, rfl, rfl, rfl, rfl, rfl, rfl, fun _ => rfl⟩

end Sys2Proof.Machine
end
